-- ==== Sys2Proof/Word.lean ====
section
/-! DEFINITION. The word types of the machine: the widths of R9, R12 and R91 (nibble, byte, 12-bit address, 16-bit word). -/

namespace Sys2Proof

/-- Four bits: the height `n` of a sprite and the family of an opcode (R12, R13). -/
abbrev Nibble := BitVec 4

/-- A general register's number, the fields `x` and `y` (R12, R93): all sixteen values are legal. -/
abbrev Reg := BitVec 4

/-- Eight bits (R9). -/
abbrev Byte := BitVec 8

/-- The 12-bit field `nnn` (R12, R93). -/
abbrev Addr := BitVec 12

/-- Sixteen bits (R9): an instruction word, the program counter, the index register, a return address. -/
abbrev Word := BitVec 16

end Sys2Proof
end

