-- ==== Sys2Proof/Config.lean ====
section
/-! DEFINITION. What is fixed for the machine: the sizes of R6, and the parameters R8 leaves open (the
pseudo-random generator and the seed), which are constants without a body, so that nothing can evaluate
them and every theorem holds for each choice of them.
The glyph bytes (R85), which R46 counts as configuration too, stand in Machine/Glyphs.lean. -/

namespace Sys2Proof

/-- Bytes of memory, at addresses 0x000 to 0xFFF (R6). -/
abbrev Config.MEM_SIZE : Nat := 4096

/-- Where `load` puts a ROM, and the first `pc` (R6, R33). -/
abbrev Config.ROM_BASE : Nat := 0x200

/-- The longest ROM `load` accepts: 4096 - 0x200 bytes (R6). -/
abbrev Config.ROM_MAX : Nat := 3584

/-- Entries of the return stack (R6). -/
abbrev Config.STACK_DEPTH : Nat := 16

/-- Logical keys (R6). -/
abbrev Config.NUM_KEYS : Nat := 16

/-- Columns of the display (R6). -/
abbrev Config.COLUMNS : Nat := 64

/-- Rows of the display (R6). -/
abbrev Config.ROWS : Nat := 32

/-- First address of the glyph table (R6). -/
abbrev Config.GLYPH_BASE : Nat := 0x000

/-- Bytes of one glyph (R6). -/
abbrev Config.GLYPH_BYTES : Nat := 5

/-- `RngState` of R8 and R44: the states of the generator, coded as natural numbers
(DESIGN CHOICE, safe: assumption 1). -/
abbrev RngState := Nat

/-- `rng_init(seed)` of R8. Left open by the spec: no body. -/
opaque Config.rngInit : Nat → RngState

/-- `rng_next(s)` of R8: the byte drawn and the next state. Left open by the spec: no body. -/
opaque Config.rngNext : RngState → Byte × RngState

/-- The `seed` given to `construct` (R8). Left open by the spec: no body. -/
opaque Config.seed : Nat

end Sys2Proof
end

