-- ==== Sys2Proof/Syntax.lean ====
section
/-! DEFINITION. The instructions: one constructor for each of the 34 rows of spec/opcode_table.json, in the
table's order, with the operand fields of R91 at their widths. -/

namespace Sys2Proof

/-- The instructions of R94. A field has exactly the width of R91, so no term is out of range. -/
inductive Instr where
  /-- `00E0` CLS (R210). -/
  | cls
  /-- `00EE` RET (R140). -/
  | ret
  /-- `1NNN` JP nnn (R141). -/
  | jp (nnn : Addr)
  /-- `2NNN` CALL nnn (R142). -/
  | call (nnn : Addr)
  /-- `3XNN` SE Vx, nn (R143). -/
  | seImm (x : Reg) (nn : Byte)
  /-- `4XNN` SNE Vx, nn (R144). -/
  | sneImm (x : Reg) (nn : Byte)
  /-- `5XY0` SE Vx, Vy (R145). -/
  | seReg (x y : Reg)
  /-- `6XNN` LD Vx, nn (R160). -/
  | ldImm (x : Reg) (nn : Byte)
  /-- `7XNN` ADD Vx, nn (R161). -/
  | addImm (x : Reg) (nn : Byte)
  /-- `8XY0` LD Vx, Vy (R162). -/
  | ldReg (x y : Reg)
  /-- `8XY1` OR Vx, Vy (R163). -/
  | orReg (x y : Reg)
  /-- `8XY2` AND Vx, Vy (R164). -/
  | andReg (x y : Reg)
  /-- `8XY3` XOR Vx, Vy (R165). -/
  | xorReg (x y : Reg)
  /-- `8XY4` ADD Vx, Vy (R166). -/
  | addReg (x y : Reg)
  /-- `8XY5` SUB Vx, Vy (R167). -/
  | subReg (x y : Reg)
  /-- `8XY6` SHR Vx (R168). `y` is decoded and ignored; it is kept so that no bit of the word is lost. -/
  | shr (x y : Reg)
  /-- `8XY7` SUBN Vx, Vy (R169). -/
  | subnReg (x y : Reg)
  /-- `8XYE` SHL Vx (R170). `y` is decoded and ignored; it is kept so that no bit of the word is lost. -/
  | shl (x y : Reg)
  /-- `9XY0` SNE Vx, Vy (R146). -/
  | sneReg (x y : Reg)
  /-- `ANNN` LD I, nnn (R190). -/
  | ldI (nnn : Addr)
  /-- `BNNN` JP V0, nnn (R147). -/
  | jpV0 (nnn : Addr)
  /-- `CXNN` RND Vx, nn (R171). -/
  | rnd (x : Reg) (nn : Byte)
  /-- `DXYN` DRW Vx, Vy, n (R212). -/
  | drw (x y : Reg) (n : Nibble)
  /-- `EX9E` SKP Vx (R230). -/
  | skp (x : Reg)
  /-- `EXA1` SKNP Vx (R231). -/
  | sknp (x : Reg)
  /-- `FX07` LD Vx, DT (R232). -/
  | ldVxDt (x : Reg)
  /-- `FX0A` LD Vx, K (R233). -/
  | ldVxK (x : Reg)
  /-- `FX15` LD DT, Vx (R234). -/
  | ldDtVx (x : Reg)
  /-- `FX18` LD ST, Vx (R235). -/
  | ldStVx (x : Reg)
  /-- `FX1E` ADD I, Vx (R191). -/
  | addIVx (x : Reg)
  /-- `FX29` LD F, Vx (R192). -/
  | ldFVx (x : Reg)
  /-- `FX33` LD B, Vx (R193). -/
  | ldBVx (x : Reg)
  /-- `FX55` LD [I], Vx (R194). -/
  | ldMemVx (x : Reg)
  /-- `FX65` LD Vx, [I] (R195). -/
  | ldVxMem (x : Reg)
  deriving DecidableEq, Repr

end Sys2Proof
end

