-- ==== Sys2Proof/WellFormed.lean ====
section
/-! DEFINITION. What can be ill-formed. The fields of an `Instr` have the widths of R91, so its type already
refuses every operand out of range and each term is well-formed; what a check must refuse is an instruction
WORD (R96), a ROM (R256) and a key number (R267). The opcode table is given here as rows of mask and match,
apart from the decoder, so that the two can be held against each other. -/

namespace Sys2Proof

/-- One row of spec/opcode_table.json: a word `w` is this instruction when `w` masked by `mask` is `value`. -/
structure OpcodeRow where
  mnemonic : String
  mask : Word
  value : Word
  deriving DecidableEq, Repr

/-- The table's rows of families 0x0 to 0x7. -/
def opcodeRows0to7 : List OpcodeRow :=
  [⟨"CLS", 0xFFFF#16, 0x00E0#16⟩, ⟨"RET", 0xFFFF#16, 0x00EE#16⟩,
   ⟨"JP_nnn", 0xF000#16, 0x1000#16⟩, ⟨"CALL_nnn", 0xF000#16, 0x2000#16⟩,
   ⟨"SE_Vx__nn", 0xF000#16, 0x3000#16⟩, ⟨"SNE_Vx__nn", 0xF000#16, 0x4000#16⟩,
   ⟨"SE_Vx__Vy", 0xF00F#16, 0x5000#16⟩, ⟨"LD_Vx__nn", 0xF000#16, 0x6000#16⟩,
   ⟨"ADD_Vx__nn", 0xF000#16, 0x7000#16⟩]

/-- The table's rows of families 0x8 to 0xD. -/
def opcodeRows8toD : List OpcodeRow :=
  [⟨"LD_Vx__Vy", 0xF00F#16, 0x8000#16⟩, ⟨"OR_Vx__Vy", 0xF00F#16, 0x8001#16⟩,
   ⟨"AND_Vx__Vy", 0xF00F#16, 0x8002#16⟩, ⟨"XOR_Vx__Vy", 0xF00F#16, 0x8003#16⟩,
   ⟨"ADD_Vx__Vy", 0xF00F#16, 0x8004#16⟩, ⟨"SUB_Vx__Vy", 0xF00F#16, 0x8005#16⟩,
   ⟨"SHR_Vx", 0xF00F#16, 0x8006#16⟩, ⟨"SUBN_Vx__Vy", 0xF00F#16, 0x8007#16⟩,
   ⟨"SHL_Vx", 0xF00F#16, 0x800E#16⟩, ⟨"SNE_Vx__Vy", 0xF00F#16, 0x9000#16⟩,
   ⟨"LD_I__nnn", 0xF000#16, 0xA000#16⟩, ⟨"JP_V0__nnn", 0xF000#16, 0xB000#16⟩,
   ⟨"RND_Vx__nn", 0xF000#16, 0xC000#16⟩, ⟨"DRW_Vx__Vy__n", 0xF000#16, 0xD000#16⟩]

/-- The table's rows of families 0xE and 0xF. -/
def opcodeRowsEtoF : List OpcodeRow :=
  [⟨"SKP_Vx", 0xF0FF#16, 0xE09E#16⟩, ⟨"SKNP_Vx", 0xF0FF#16, 0xE0A1#16⟩,
   ⟨"LD_Vx__DT", 0xF0FF#16, 0xF007#16⟩, ⟨"LD_Vx__K", 0xF0FF#16, 0xF00A#16⟩,
   ⟨"LD_DT__Vx", 0xF0FF#16, 0xF015#16⟩, ⟨"LD_ST__Vx", 0xF0FF#16, 0xF018#16⟩,
   ⟨"ADD_I__Vx", 0xF0FF#16, 0xF01E#16⟩, ⟨"LD_F__Vx", 0xF0FF#16, 0xF029#16⟩,
   ⟨"LD_B__Vx", 0xF0FF#16, 0xF033#16⟩, ⟨"LD__I___Vx", 0xF0FF#16, 0xF055#16⟩,
   ⟨"LD_Vx___I", 0xF0FF#16, 0xF065#16⟩]

/-- spec/opcode_table.json as mask and match, in its order. -/
def opcodeTable : List OpcodeRow := opcodeRows0to7 ++ opcodeRows8toD ++ opcodeRowsEtoF

/-- The mnemonic of an instruction's row in spec/opcode_table.json. -/
def Instr.mnemonic : Instr → String
  | .cls => "CLS"
  | .ret => "RET"
  | .jp _ => "JP_nnn"
  | .call _ => "CALL_nnn"
  | .seImm _ _ => "SE_Vx__nn"
  | .sneImm _ _ => "SNE_Vx__nn"
  | .seReg _ _ => "SE_Vx__Vy"
  | .ldImm _ _ => "LD_Vx__nn"
  | .addImm _ _ => "ADD_Vx__nn"
  | .ldReg _ _ => "LD_Vx__Vy"
  | .orReg _ _ => "OR_Vx__Vy"
  | .andReg _ _ => "AND_Vx__Vy"
  | .xorReg _ _ => "XOR_Vx__Vy"
  | .addReg _ _ => "ADD_Vx__Vy"
  | .subReg _ _ => "SUB_Vx__Vy"
  | .shr _ _ => "SHR_Vx"
  | .subnReg _ _ => "SUBN_Vx__Vy"
  | .shl _ _ => "SHL_Vx"
  | .sneReg _ _ => "SNE_Vx__Vy"
  | .ldI _ => "LD_I__nnn"
  | .jpV0 _ => "JP_V0__nnn"
  | .rnd _ _ => "RND_Vx__nn"
  | .drw _ _ _ => "DRW_Vx__Vy__n"
  | .skp _ => "SKP_Vx"
  | .sknp _ => "SKNP_Vx"
  | .ldVxDt _ => "LD_Vx__DT"
  | .ldVxK _ => "LD_Vx__K"
  | .ldDtVx _ => "LD_DT__Vx"
  | .ldStVx _ => "LD_ST__Vx"
  | .addIVx _ => "ADD_I__Vx"
  | .ldFVx _ => "LD_F__Vx"
  | .ldBVx _ => "LD_B__Vx"
  | .ldMemVx _ => "LD__I___Vx"
  | .ldVxMem _ => "LD_Vx___I"

/-- `w` is a word of the row. -/
def OpcodeRow.covers (r : OpcodeRow) (w : Word) : Bool := w &&& r.mask == r.value

/-- A legal instruction word: some row of the opcode table covers it (R94); every other word is illegal (R96). -/
def wordLegal (w : Word) : Bool := opcodeTable.any (·.covers w)

/-- The illegal words as R96 lists them, by family. -/
def wordIllegal (w : Word) : Bool :=
  let family := w.toNat / 0x1000
  let low4 := w.toNat % 0x10
  let low8 := w.toNat % 0x100
  if family = 0x0 then w.toNat ∉ [0x00E0, 0x00EE]
  else if family = 0x5 ∨ family = 0x9 then low4 ≠ 0
  else if family = 0x8 then low4 ∈ [0x8, 0x9, 0xA, 0xB, 0xC, 0xD, 0xF]
  else if family = 0xE then low8 ∉ [0x9E, 0xA1]
  else if family = 0xF then low8 ∉ [0x07, 0x0A, 0x15, 0x18, 0x1E, 0x29, 0x33, 0x55, 0x65]
  else false

/-- A ROM that fits from 0x200 to 0xFFF (R256, R282). -/
def romFits (rom : List Byte) : Bool := rom.length ≤ Config.ROM_MAX

/-- A key number of the interface (R267). -/
def keyNumberOk (k : Nat) : Bool := k < Config.NUM_KEYS

end Sys2Proof
end

