-- ==== Sys2Proof/Decode.lean ====
section
/-! DEFINITION. Decoding (R90 to R97), total on every word and every list of bytes, and the encoder written from the
same formats (R92). Also the bit-field and byte-order helpers they use. -/

namespace Sys2Proof

/-- `v[hi:lo]` of R9: the unsigned value of bits hi down to lo. -/
def bits (v : Word) (hi lo : Nat) : Nat := v.toNat / 2 ^ lo % 2 ^ (hi - lo + 1)

/-- The family `f = op[15:12]` (R91). -/
def fieldF (op : Word) : Nat := bits op 15 12

/-- `x = op[11:8]` (R91). -/
def fieldX (op : Word) : Reg := BitVec.ofNat 4 (bits op 11 8)

/-- `y = op[7:4]` (R91). -/
def fieldY (op : Word) : Reg := BitVec.ofNat 4 (bits op 7 4)

/-- `n = op[3:0]` (R91). -/
def fieldN (op : Word) : Nibble := BitVec.ofNat 4 (bits op 3 0)

/-- `nn = op[7:0]` (R91). -/
def fieldNN (op : Word) : Byte := BitVec.ofNat 8 (bits op 7 0)

/-- `nnn = op[11:0]` (R91). -/
def fieldNNN (op : Word) : Addr := BitVec.ofNat 12 (bits op 11 0)

/-- `hi ++ lo` of R9 and R72: two bytes read big-endian. -/
def wordOfBytes (hi lo : Byte) : Word := BitVec.ofNat 16 (hi.toNat * 0x100 + lo.toNat)

/-- The byte of a word that lies at the lower address (R72). -/
def highByte (w : Word) : Byte := BitVec.ofNat 8 (w.toNat / 0x100)

/-- The byte of a word that lies at the higher address (R72). -/
def lowByte (w : Word) : Byte := BitVec.ofNat 8 (w.toNat % 0x100)

/-- Why bytes decode to no instruction. -/
inductive DecodeReject where
  /-- The word is illegal (R96); it carries the raw word. -/
  | unimplementedOpcode (op : Word)
  /-- Fewer than the two bytes of an instruction (R90). No fetch gives this. -/
  | truncated
  deriving DecidableEq, Repr

/-- Family 0x8 by its low nibble (R95). -/
def decodeAlu (op : Word) : Except DecodeReject Instr :=
  match (fieldN op).toNat with
  | 0x0 => .ok (.ldReg (fieldX op) (fieldY op))
  | 0x1 => .ok (.orReg (fieldX op) (fieldY op))
  | 0x2 => .ok (.andReg (fieldX op) (fieldY op))
  | 0x3 => .ok (.xorReg (fieldX op) (fieldY op))
  | 0x4 => .ok (.addReg (fieldX op) (fieldY op))
  | 0x5 => .ok (.subReg (fieldX op) (fieldY op))
  | 0x6 => .ok (.shr (fieldX op) (fieldY op))
  | 0x7 => .ok (.subnReg (fieldX op) (fieldY op))
  | 0xE => .ok (.shl (fieldX op) (fieldY op))
  | _ => .error (.unimplementedOpcode op)

/-- Family 0xE by its low byte (R95). -/
def decodeKey (op : Word) : Except DecodeReject Instr :=
  match (fieldNN op).toNat with
  | 0x9E => .ok (.skp (fieldX op))
  | 0xA1 => .ok (.sknp (fieldX op))
  | _ => .error (.unimplementedOpcode op)

/-- Family 0xF by its low byte (R95). -/
def decodeMisc (op : Word) : Except DecodeReject Instr :=
  match (fieldNN op).toNat with
  | 0x07 => .ok (.ldVxDt (fieldX op))
  | 0x0A => .ok (.ldVxK (fieldX op))
  | 0x15 => .ok (.ldDtVx (fieldX op))
  | 0x18 => .ok (.ldStVx (fieldX op))
  | 0x1E => .ok (.addIVx (fieldX op))
  | 0x29 => .ok (.ldFVx (fieldX op))
  | 0x33 => .ok (.ldBVx (fieldX op))
  | 0x55 => .ok (.ldMemVx (fieldX op))
  | 0x65 => .ok (.ldVxMem (fieldX op))
  | _ => .error (.unimplementedOpcode op)

/-- `decode(op)` of R95, total on all 65536 words; an illegal word is rejected by its name (R96). -/
def decodeWord (op : Word) : Except DecodeReject Instr :=
  match fieldF op with
  | 0x0 =>
    if op = 0x00E0#16 then .ok .cls
    else if op = 0x00EE#16 then .ok .ret
    else .error (.unimplementedOpcode op)
  | 0x1 => .ok (.jp (fieldNNN op))
  | 0x2 => .ok (.call (fieldNNN op))
  | 0x3 => .ok (.seImm (fieldX op) (fieldNN op))
  | 0x4 => .ok (.sneImm (fieldX op) (fieldNN op))
  | 0x5 => if fieldN op = 0#4 then .ok (.seReg (fieldX op) (fieldY op)) else .error (.unimplementedOpcode op)
  | 0x6 => .ok (.ldImm (fieldX op) (fieldNN op))
  | 0x7 => .ok (.addImm (fieldX op) (fieldNN op))
  | 0x8 => decodeAlu op
  | 0x9 => if fieldN op = 0#4 then .ok (.sneReg (fieldX op) (fieldY op)) else .error (.unimplementedOpcode op)
  | 0xA => .ok (.ldI (fieldNNN op))
  | 0xB => .ok (.jpV0 (fieldNNN op))
  | 0xC => .ok (.rnd (fieldX op) (fieldNN op))
  | 0xD => .ok (.drw (fieldX op) (fieldY op) (fieldN op))
  | 0xE => decodeKey op
  | 0xF => decodeMisc op
  | _ => .error (.unimplementedOpcode op)

/-- The decoder on bytes as they lie in memory: the first two are one big-endian word (R72, R90); the rest
is given back. -/
def decodeBytes : List Byte → Except DecodeReject (Instr × List Byte)
  | hi :: lo :: rest =>
    match decodeWord (wordOfBytes hi lo) with
    | .ok i => .ok (i, rest)
    | .error e => .error e
  | _ => .error .truncated

/-- Format ADDR of R92: `ffff aaaa aaaa aaaa`. -/
def wordAddr (f : Nat) (nnn : Addr) : Word := BitVec.ofNat 16 (f * 0x1000 + nnn.toNat)

/-- Formats REG_IMM and REG_FN of R92: `ffff xxxx kkkk kkkk`. -/
def wordRegByte (f : Nat) (x : Reg) (k : Nat) : Word := BitVec.ofNat 16 (f * 0x1000 + x.toNat * 0x100 + k)

/-- Formats REG_REG and DRAW of R92: `ffff xxxx yyyy ssss`. -/
def wordRegReg (f : Nat) (x y : Reg) (s : Nat) : Word :=
  BitVec.ofNat 16 (f * 0x1000 + x.toNat * 0x100 + y.toNat * 0x10 + s)

/-- The word of an instruction, from the formats of R92 and the codes of R94. -/
def encode : Instr → Word
  | .cls => 0x00E0#16
  | .ret => 0x00EE#16
  | .jp nnn => wordAddr 0x1 nnn
  | .call nnn => wordAddr 0x2 nnn
  | .seImm x nn => wordRegByte 0x3 x nn.toNat
  | .sneImm x nn => wordRegByte 0x4 x nn.toNat
  | .seReg x y => wordRegReg 0x5 x y 0x0
  | .ldImm x nn => wordRegByte 0x6 x nn.toNat
  | .addImm x nn => wordRegByte 0x7 x nn.toNat
  | .ldReg x y => wordRegReg 0x8 x y 0x0
  | .orReg x y => wordRegReg 0x8 x y 0x1
  | .andReg x y => wordRegReg 0x8 x y 0x2
  | .xorReg x y => wordRegReg 0x8 x y 0x3
  | .addReg x y => wordRegReg 0x8 x y 0x4
  | .subReg x y => wordRegReg 0x8 x y 0x5
  | .shr x y => wordRegReg 0x8 x y 0x6
  | .subnReg x y => wordRegReg 0x8 x y 0x7
  | .shl x y => wordRegReg 0x8 x y 0xE
  | .sneReg x y => wordRegReg 0x9 x y 0x0
  | .ldI nnn => wordAddr 0xA nnn
  | .jpV0 nnn => wordAddr 0xB nnn
  | .rnd x nn => wordRegByte 0xC x nn.toNat
  | .drw x y n => wordRegReg 0xD x y n.toNat
  | .skp x => wordRegByte 0xE x 0x9E
  | .sknp x => wordRegByte 0xE x 0xA1
  | .ldVxDt x => wordRegByte 0xF x 0x07
  | .ldVxK x => wordRegByte 0xF x 0x0A
  | .ldDtVx x => wordRegByte 0xF x 0x15
  | .ldStVx x => wordRegByte 0xF x 0x18
  | .addIVx x => wordRegByte 0xF x 0x1E
  | .ldFVx x => wordRegByte 0xF x 0x29
  | .ldBVx x => wordRegByte 0xF x 0x33
  | .ldMemVx x => wordRegByte 0xF x 0x55
  | .ldVxMem x => wordRegByte 0xF x 0x65

/-- The two bytes of an instruction as memory holds them, the first at the lower address (R72). -/
def encodeBytes (i : Instr) : List Byte := [highByte (encode i), lowByte (encode i)]

/-- The word whose bits the host numbers as spec/opcode_table.json does, the bits above `nbits` zero. -/
def tableWord (nbits w : Nat) : Word := BitVec.ofNat 16 (w % 2 ^ nbits)

/-- What the decoder reads from an instruction whose bits, numbered as spec/opcode_table.json numbers them,
are `w`: its two bytes are laid out big-endian and given to the decoder. -/
def decodeTableWord (nbits w : Nat) : Option Instr :=
  match decodeBytes [highByte (tableWord nbits w), lowByte (tableWord nbits w)] with
  | .ok (i, _) => some i
  | .error _ => none

end Sys2Proof
end

