-- ==== Sys2Proof/Machine/Memory.lean ====
section
/-! DEFINITION. The one memory of R30 and R70 as plain data: a list of (address, byte) pairs in a canonical form.
It lists exactly the bytes that differ from what construction left there (R47), in rising order of address,
so that equal memories are equal lists. Whether an address exists is checked by the primitives of R74 in
Machine/Ops.lean. -/

namespace Sys2Proof.Machine

open Sys2Proof

/-- The contents of `mem[0..4095]`: the bytes that differ from `Memory.initial`. -/
abbrev Memory := List Host.Cell

/-- What an unlisted address reads as: the byte construction left there, the glyph table from `GLYPH_BASE`
and 0x00 in every other byte (R30, R47; assumption 4). -/
def Memory.initial (a : Nat) : Byte :=
  if Config.GLYPH_BASE ≤ a then Config.GLYPHS.getD (a - Config.GLYPH_BASE) 0x00#8 else 0x00#8

/-- The byte at address `a`. -/
def Memory.read : Memory → Nat → Byte
  | [], a => Memory.initial a
  | (b, v) :: rest, a => if b = a then v else Memory.read rest a

/-- Put a cell before the first cell of a higher address. -/
def Memory.insertCell (c : Host.Cell) : Memory → Memory
  | [] => [c]
  | d :: rest => if c.1 < d.1 then c :: d :: rest else d :: Memory.insertCell c rest

/-- Make the byte at address `a` unlisted. -/
def Memory.erase (m : Memory) (a : Nat) : Memory := m.filter (fun c => c.1 ≠ a)

/-- `mem[a] <- v`. Writing what an unlisted address reads as removes the entry. -/
def Memory.write (m : Memory) (a : Nat) (v : Byte) : Memory :=
  if v = Memory.initial a then m.erase a else Memory.insertCell (a, v) (m.erase a)

/-- Bytes written at rising addresses from `a`. -/
def Memory.writeBytes (m : Memory) (a : Nat) : List Byte → Memory
  | [] => m
  | b :: rest => Memory.writeBytes (m.write a b) (a + 1) rest

/-- The `n` bytes read at rising addresses from `a`. -/
def Memory.readBytes (m : Memory) (a : Nat) : Nat → List Byte
  | 0 => []
  | n + 1 => m.read a :: Memory.readBytes m (a + 1) n

/-- Strictly rising addresses from `lo` on, all below `MEM_SIZE`, and no entry that equals what an unlisted
address reads as. -/
def Memory.wfFrom : Nat → Memory → Bool
  | _, [] => true
  | lo, (a, v) :: rest =>
    decide (lo ≤ a) && decide (a < Config.MEM_SIZE) && decide (v ≠ Memory.initial a) && Memory.wfFrom (a + 1) rest

/-- The canonical form. -/
def Memory.wf (m : Memory) : Bool := Memory.wfFrom 0 m

end Sys2Proof.Machine
end

