-- ==== Sys2Proof/Machine/State.lean ====
section
/-! DEFINITION. The state of the machine, holding every piece of state of spec/10_state.md; the faults of R250; the
refusals; and the state after construction (R47). -/

namespace Sys2Proof.Machine

open Sys2Proof

/-- The display buffer of R40: 2048 one-bit cells, row-major, cell (column c, row r) at index `c + 64*r`. -/
abbrev Display := Vector Bool 2048

/-- Everything the spec gives the machine (R30 to R44). -/
structure State where
  /-- `mem[0..4095]` (R30). -/
  mem : Memory
  /-- `V[0..15]`, VF the last (R31). -/
  v : Vector Byte 16
  /-- `I` (R34). -/
  i : Word
  /-- `pc` (R33). -/
  pc : Word
  /-- `sp`, the number of occupied stack entries, 0 to 16 (R35). -/
  sp : Fin 17
  /-- `stack[0..15]`, occupied below `sp` (R38). -/
  stack : Vector Word 16
  /-- `DT` (R36). -/
  dt : Byte
  /-- `ST` (R37). -/
  st : Byte
  /-- `keys[0..15]`, true when pressed (R39). -/
  keys : Vector Bool 16
  /-- `fb[0..2047]` (R40). -/
  fb : Display
  /-- The redraw latch (R41). -/
  redraw : Bool
  /-- The beep latch (R42). -/
  beep : Bool
  /-- Whether a `load` has succeeded (R43). -/
  loaded : Bool
  /-- The state of the pseudo-random generator (R44). -/
  rng : RngState
  deriving DecidableEq, Repr

/-- The faults of R250. The spec has a fault write no state (R126), so stopping with one is safe; the conditions
that are the spec's own decisions are in the assumption log. -/
inductive Fault where
  /-- Raised by `cycle()` before fetch when `pc` is odd or at least 4096 (R251); it carries the `pc`. Safe. -/
  | invalidProgramCounter (pc : Word)
  /-- Raised by `cycle()` at decode when the word is no instruction (R252); it carries the raw word. Safe. -/
  | unimplementedOpcode (op : Word)
  /-- Raised by 2NNN when `sp = 16` (R253). Safe. -/
  | stackOverflow
  /-- Raised by 00EE when `sp = 0` (R254). Safe. -/
  | stackUnderflow
  /-- Raised by DXYN, FX33, FX55 and FX65 when an address of the access exceeds 0xFFF (R255); it carries the
  lowest such address. Safe. -/
  | memoryOutOfRange (addr : Nat)
  /-- Raised by `load` when the ROM is longer than 3584 bytes (R256). Safe. -/
  | romTooLarge
  deriving DecidableEq, Repr

/-- What the model gives no step. No instruction and no `cycle()` ends in one of these. -/
inductive Refusal where
  /-- An instruction without a meaning yet. Raised by no arm of `exec`. Safe. -/
  | notModelled (mnemonic : String)
  /-- `load` on a core that is loaded already: the spec calls it outside the interface and gives it no step
  (R282). Raised by the host operation `load`. Safe. -/
  | secondLoad
  /-- `set_key` with a key number above 15: the spec calls it outside the interface and gives it no step
  (R267). Raised by the host operation `set_key`. Safe. -/
  | keyOutsideInterface (k : Nat)
  deriving DecidableEq, Repr

/-- How an instruction ends. -/
abbrev Result := Host.Outcome State Fault Refusal

/-- `construct(seed)`: a fresh core (R47, R280). -/
def State.construct (seed : Nat) : State where
  mem := []
  v := Vector.replicate 16 0x00#8
  i := 0x0000#16
  pc := BitVec.ofNat 16 Config.ROM_BASE
  sp := 0
  stack := Vector.replicate 16 0x0000#16
  dt := 0x00#8
  st := 0x00#8
  keys := Vector.replicate 16 false
  fb := Vector.replicate 2048 false
  redraw := false
  beep := false
  loaded := false
  rng := Config.rngInit seed

/-- The machine right after reset: construction is the only reset (R280, R281). -/
def State.reset : State := State.construct Config.seed

end Sys2Proof.Machine
end

