-- ==== Sys2Proof/Machine/Ops.lean ====
section
/-! DEFINITION. The named operations over registers, the program counter, the stack, memory and the display, and the one
way to raise a fault. -/

namespace Sys2Proof.Machine

open Sys2Proof

/-- `raise F(info)` of R10: the operation ends with the fault and writes nothing (R126). There is no trap entry
(R259) and no return from one (R260): no register saves anything, no mode changes, `pc` goes nowhere, and the
state is what it was. -/
def raise (f : Fault) : Result := .fault f

/-- End an instruction: the state it computed, or the fault it raised with all its writes discarded (R11). -/
def finish : Except Fault State → Result
  | .ok s => .next s
  | .error f => raise f

/-- The number of the flag register VF (R32). -/
def VF : Reg := 0xF#4

/-- `V[x]` (R10). -/
def State.reg (s : State) (x : Reg) : Byte := s.v[x.toNat]'x.isLt

/-- `V[x] <- b` (R10). -/
def State.setReg (s : State) (x : Reg) (b : Byte) : State := { s with v := s.v.set x.toNat b x.isLt }

/-- `V[k] <- bytes[k]` for each k below the length of `bytes`; the other registers keep their values. -/
def State.setRegs (s : State) (bytes : List Byte) : State :=
  { s with v := Vector.ofFn fun k : Fin 16 => bytes.getD k.val s.v[k] }

/-- `V[0], …, V[x]` in order. -/
def State.regsUpTo (s : State) (x : Reg) : List Byte := s.v.toList.take (x.toNat + 1)

/-- `I <- w` (R10). -/
def State.setI (s : State) (w : Word) : State := { s with i := w }

/-- `pc <- target` (R10): the target is stored as it is, checked only at the next fetch (R33, R148). -/
def State.jump (s : State) (target : Word) : State := { s with pc := target }

/-- The sequential class of R125: `pc <- pc + 2`, in 16 bits. -/
def State.advance (s : State) : State := s.jump (s.pc + 2#16)

/-- The skip class of R125: `pc + 4` if the condition holds, else `pc + 2`. -/
def State.skipIf (s : State) (condition : Bool) : State :=
  if condition then s.jump (s.pc + 4#16) else s.advance

/-- `DT <- b` (R36). -/
def State.setDt (s : State) (b : Byte) : State := { s with dt := b }

/-- `ST <- b` (R37). -/
def State.setSt (s : State) (b : Byte) : State := { s with st := b }

/-- `rng <- r` (R44). -/
def State.setRng (s : State) (r : RngState) : State := { s with rng := r }

/-- Replace the memory. -/
def State.setMem (s : State) (m : Memory) : State := { s with mem := m }

/-- Replace the display buffer and set the redraw latch, as 00E0 and DXYN do (R41). -/
def State.setDisplay (s : State) (fb : Display) : State := { s with fb := fb, redraw := true }

/-- Push a return address (R142, D15): `stack[sp] <- ret; sp <- sp + 1`, or `StackOverflow` when `sp = 16`. -/
def State.push (s : State) (ret : Word) : Except Fault State :=
  if h : s.sp.val < 16 then
    .ok { s with stack := s.stack.set s.sp.val ret h, sp := ⟨s.sp.val + 1, by omega⟩ }
  else .error .stackOverflow

/-- Pop a return address (R140, D15): `sp <- sp - 1` and the entry there, not cleared, or `StackUnderflow` when
`sp = 0`. -/
def State.pop (s : State) : Except Fault (Word × State) :=
  if h : s.sp.val = 0 then .error .stackUnderflow
  else .ok (s.stack[s.sp.val - 1]'(by omega), { s with sp := ⟨s.sp.val - 1, by omega⟩ })

/-- `MemRead(addr, 1)` of R74. The address is not reduced. -/
def State.memRead (s : State) (addr : Nat) : Except Fault Byte :=
  if addr > 0xFFF then .error (.memoryOutOfRange addr) else .ok (s.mem.read addr)

/-- `MemWrite(addr, 1, v)` of R74. The address is not reduced. -/
def State.memWrite (s : State) (addr : Nat) (v : Byte) : Except Fault State :=
  if addr > 0xFFF then .error (.memoryOutOfRange addr) else .ok (s.setMem (s.mem.write addr v))

/-- `MemRead` at `n` rising addresses from `addr`. -/
def State.memReadBlock (s : State) (addr : Nat) : Nat → Except Fault (List Byte)
  | 0 => .ok []
  | n + 1 => do
    let b ← s.memRead addr
    let rest ← State.memReadBlock s (addr + 1) n
    .ok (b :: rest)

/-- `MemWrite` of a list of bytes at rising addresses from `addr`. -/
def State.memWriteBlock (s : State) (addr : Nat) : List Byte → Except Fault State
  | [] => .ok s
  | b :: rest => do
    let t ← s.memWrite addr b
    State.memWriteBlock t (addr + 1) rest

/-- Whether key `k` is down (R39). -/
def State.keyDown (s : State) (k : Nibble) : Bool := s.keys[k.toNat]'k.isLt

end Sys2Proof.Machine
end

