-- ==== Sys2Proof/Machine/Operands.lean ====
section
/-! DEFINITION. The operand forms: immediates are zero-extended (R93), the one data addressing mode is `I + k`
computed exactly (R74, R75), and the derived operands of FX29, FX33, FX0A, EX9E and EXA1. -/

namespace Sys2Proof.Machine

open Sys2Proof

/-- `zext_16(nnn)` of R93. -/
def zext16 (nnn : Addr) : Word := BitVec.ofNat 16 nnn.toNat

/-- The address `I + k` of R74, an exact integer. -/
def State.indexAddr (s : State) (k : Nat) : Nat := s.i.toNat + k

/-- The range check of R75 on the `n` addresses `I .. I+n-1`, made before any access; the fault carries
`max(I, 0x1000)`. With n = 0 there is nothing to check. -/
def State.checkRange (s : State) (n : Nat) : Except Fault Unit :=
  if n > 0 ∧ s.i.toNat + n - 1 > 0xFFF then .error (.memoryOutOfRange (max s.i.toNat 0x1000)) else .ok ()

/-- The key number `V[x] & 0x0F` of R230. -/
def keyNumber (b : Byte) : Nibble := BitVec.ofNat 4 (b.toNat % 16)

/-- The lowest-numbered key that is down (R233). -/
def State.lowestKey (s : State) : Option (Fin 16) := (List.finRange 16).find? fun k => s.keys[k]

/-- The address of the glyph of the digit `V[x] & 0x0F` (R192). -/
def glyphAddress (b : Byte) : Word :=
  BitVec.ofNat 16 (Config.GLYPH_BASE + Config.GLYPH_BYTES * (b.toNat % 16))

/-- The three decimal digits of R193, hundreds first. -/
def bcdDigits (b : Byte) : List Byte :=
  [BitVec.ofNat 8 (b.toNat / 100), BitVec.ofNat 8 (b.toNat / 10 % 10), BitVec.ofNat 8 (b.toNat % 10)]

end Sys2Proof.Machine
end

