-- ==== Sys2Proof/Machine/Flags.lean ====
section
/-! DEFINITION. Every flag computation of the spec (R32): what VF is written with, always exactly 0 or 1, and the order
of the two writes (R173). -/

namespace Sys2Proof.Machine

open Sys2Proof

/-- A flag as the byte 0 or 1 (R32). -/
def flagByte (c : Bool) : Byte := if c then 0x01#8 else 0x00#8

/-- The carry of `a + b` (R166): the exact sum is above 255. -/
def carry (a b : Byte) : Byte := flagByte (decide (a.toNat + b.toNat > 255))

/-- NOT borrow of `a - b` (R167, R169): `a >= b`. -/
def notBorrow (a b : Byte) : Byte := flagByte (decide (a.toNat ≥ b.toNat))

/-- The bit a right shift by one moves out (R168): `a & 1`. -/
def shiftedOutRight (a : Byte) : Byte := BitVec.ofNat 8 (a.toNat % 2)

/-- The bit a left shift by one moves out (R170): `(a >> 7) & 1`. -/
def shiftedOutLeft (a : Byte) : Byte := BitVec.ofNat 8 (a.toNat / 128 % 2)

/-- Write the result and then the flag (R173): with x = 0xF, VF ends holding the flag. -/
def State.setRegFlag (s : State) (x : Reg) (result flag : Byte) : State := (s.setReg x result).setReg VF flag

end Sys2Proof.Machine
end

