-- ==== Sys2Proof/Machine/Alu.lean ====
section
/-! DEFINITION. Register loads and the ALU (spec/42_register_alu.md). Each result is computed on exact integers and
narrowed at the end (R9, R172); operands are read before any register is written (R174), the flag is
written last (R173), and `pc` advances by 2 (R125). -/

namespace Sys2Proof.Machine

open Sys2Proof

/-- `6XNN` LD Vx, nn (R160). -/
def execLdImm (x : Reg) (nn : Byte) (s : State) : Result := .next (s.setReg x nn).advance

/-- `7XNN` ADD Vx, nn (R161): modulo 256, no flag. -/
def execAddImm (x : Reg) (nn : Byte) (s : State) : Result :=
  .next (s.setReg x (BitVec.ofNat 8 ((s.reg x).toNat + nn.toNat))).advance

/-- `8XY0` LD Vx, Vy (R162): no flag. -/
def execLdReg (x y : Reg) (s : State) : Result := .next (s.setReg x (s.reg y)).advance

/-- `8XY1` OR Vx, Vy (R163): VF becomes 0. -/
def execOrReg (x y : Reg) (s : State) : Result :=
  .next (s.setRegFlag x (s.reg x ||| s.reg y) (flagByte false)).advance

/-- `8XY2` AND Vx, Vy (R164): VF becomes 0. -/
def execAndReg (x y : Reg) (s : State) : Result :=
  .next (s.setRegFlag x (s.reg x &&& s.reg y) (flagByte false)).advance

/-- `8XY3` XOR Vx, Vy (R165): VF becomes 0. -/
def execXorReg (x y : Reg) (s : State) : Result :=
  .next (s.setRegFlag x (s.reg x ^^^ s.reg y) (flagByte false)).advance

/-- `8XY4` ADD Vx, Vy (R166): VF becomes the carry. -/
def execAddReg (x y : Reg) (s : State) : Result :=
  let a := s.reg x
  let b := s.reg y
  .next (s.setRegFlag x (BitVec.ofNat 8 (a.toNat + b.toNat)) (carry a b)).advance

/-- `8XY5` SUB Vx, Vy (R167): VF becomes NOT borrow. -/
def execSubReg (x y : Reg) (s : State) : Result :=
  let a := s.reg x
  let b := s.reg y
  .next (s.setRegFlag x (BitVec.ofInt 8 ((a.toNat : Int) - (b.toNat : Int))) (notBorrow a b)).advance

/-- `8XY6` SHR Vx (R168): V[x] is shifted in place and Vy is ignored (D2); VF becomes the bit shifted out. -/
def execShr (x _y : Reg) (s : State) : Result :=
  let a := s.reg x
  .next (s.setRegFlag x (BitVec.ofNat 8 (a.toNat / 2)) (shiftedOutRight a)).advance

/-- `8XY7` SUBN Vx, Vy (R169): VF becomes NOT borrow of the reversed subtraction. -/
def execSubnReg (x y : Reg) (s : State) : Result :=
  let a := s.reg x
  let b := s.reg y
  .next (s.setRegFlag x (BitVec.ofInt 8 ((b.toNat : Int) - (a.toNat : Int))) (notBorrow b a)).advance

/-- `8XYE` SHL Vx (R170): V[x] is shifted in place and Vy is ignored (D2); VF becomes the bit shifted out. -/
def execShl (x _y : Reg) (s : State) : Result :=
  let a := s.reg x
  .next (s.setRegFlag x (BitVec.ofNat 8 (a.toNat * 2)) (shiftedOutLeft a)).advance

/-- `CXNN` RND Vx, nn (R171): exactly one draw, of the generator the spec leaves open (D13). -/
def execRnd (x : Reg) (nn : Byte) (s : State) : Result :=
  let draw := Config.rngNext s.rng
  .next ((s.setRng draw.2).setReg x (draw.1 &&& nn)).advance

end Sys2Proof.Machine
end

