-- ==== Sys2Proof/Machine/ControlFlow.lean ====
section
/-! DEFINITION. Control flow (spec/41_control_flow.md): RET, JP, CALL, the register and immediate skips, JP V0. -/

namespace Sys2Proof.Machine

open Sys2Proof

/-- `00EE` RET (R140). -/
def execRet (s : State) : Result :=
  finish do
    let (ret, t) ← s.pop
    .ok (t.jump ret)

/-- `1NNN` JP nnn (R141). -/
def execJp (nnn : Addr) (s : State) : Result := .next (s.jump (zext16 nnn))

/-- `2NNN` CALL nnn (R142): the pushed value is `pc + 2`. -/
def execCall (nnn : Addr) (s : State) : Result :=
  finish do
    let t ← s.push (s.pc + 2#16)
    .ok (t.jump (zext16 nnn))

/-- `3XNN` SE Vx, nn (R143). -/
def execSeImm (x : Reg) (nn : Byte) (s : State) : Result := .next (s.skipIf (s.reg x == nn))

/-- `4XNN` SNE Vx, nn (R144). -/
def execSneImm (x : Reg) (nn : Byte) (s : State) : Result := .next (s.skipIf (s.reg x != nn))

/-- `5XY0` SE Vx, Vy (R145). -/
def execSeReg (x y : Reg) (s : State) : Result := .next (s.skipIf (s.reg x == s.reg y))

/-- `9XY0` SNE Vx, Vy (R146). -/
def execSneReg (x y : Reg) (s : State) : Result := .next (s.skipIf (s.reg x != s.reg y))

/-- `BNNN` JP V0, nnn (R147): the register is always V0, and the sum is not masked to 12 bits. -/
def execJpV0 (nnn : Addr) (s : State) : Result :=
  .next (s.jump (BitVec.ofNat 16 (nnn.toNat + (s.reg 0x0#4).toNat)))

end Sys2Proof.Machine
end

