-- ==== Sys2Proof/Machine/Draw.lean ====
section
/-! DEFINITION. The display buffer and the sprite-blit engine (spec/44_display.md). -/

namespace Sys2Proof.Machine

open Sys2Proof

/-- The cell at a column and a row, both wrapped (R211): `(col mod 64) + 64 * (row mod 32)`. -/
def cellIndex (col row : Nat) : Fin 2048 := ⟨col % 64 + 64 * (row % 32), by omega⟩

/-- The cells one sprite byte flips, from column `cx` of row `cy` on, in the order of R211's inner loop:
bit 7 is the leftmost column. -/
def rowCells (cx cy : Nat) (row : Byte) : List (Fin 2048) :=
  ((List.range 8).filter fun c => row.getLsbD (7 - c)).map fun c => cellIndex (cx + c) cy

/-- The cells a sprite flips, in the order of R211's two loops. -/
def spriteCells (cx cy : Nat) : List Byte → List (Fin 2048)
  | [] => []
  | row :: rest => rowCells cx cy row ++ spriteCells cx (cy + 1) rest

/-- Flip cells in order; the flag says whether some cell was 1 when it was flipped (R211). -/
def flipCells (fb : Display) : List (Fin 2048) → Display × Bool
  | [] => (fb, false)
  | j :: rest =>
    let after := flipCells (fb.set j.val (!fb[j]) j.isLt) rest
    (after.1, fb[j] || after.2)

/-- The blit engine `draw(cx, cy, rows)` of R211, but for its redraw write: the new buffer and `collided`. -/
def draw (fb : Display) (cx cy : Nat) (rows : List Byte) : Display × Bool :=
  flipCells fb (spriteCells cx cy rows)

/-- `00E0` CLS (R210). -/
def execCls (s : State) : Result := .next (s.setDisplay (Vector.replicate 2048 false)).advance

/-- `DXYN` DRW Vx, Vy, n (R212): the coordinates and all sprite bytes are read first, VF is written last. -/
def execDrw (x y : Reg) (n : Nibble) (s : State) : Result :=
  finish do
    s.checkRange n.toNat
    let rows ← s.memReadBlock (s.indexAddr 0) n.toNat
    let drawn := draw s.fb (s.reg x).toNat (s.reg y).toNat rows
    .ok ((s.setDisplay drawn.1).setReg VF (flagByte drawn.2)).advance

end Sys2Proof.Machine
end

