-- ==== Sys2Proof/Machine/IndexMemory.lean ====
section
/-! DEFINITION. The index register, BCD, and the register block store and load (spec/43_index_memory.md). The whole
range is checked before any access (R75), and `I` is not advanced. -/

namespace Sys2Proof.Machine

open Sys2Proof

/-- `ANNN` LD I, nnn (R190). -/
def execLdI (nnn : Addr) (s : State) : Result := .next (s.setI (zext16 nnn)).advance

/-- `FX1E` ADD I, Vx (R191): modulo 65536, VF not written (D8). -/
def execAddIVx (x : Reg) (s : State) : Result :=
  .next (s.setI (BitVec.ofNat 16 (s.i.toNat + (s.reg x).toNat))).advance

/-- `FX29` LD F, Vx (R192). -/
def execLdFVx (x : Reg) (s : State) : Result := .next (s.setI (glyphAddress (s.reg x))).advance

/-- `FX33` LD B, Vx (R193). -/
def execLdBVx (x : Reg) (s : State) : Result :=
  finish do
    s.checkRange 3
    let t ← s.memWriteBlock (s.indexAddr 0) (bcdDigits (s.reg x))
    .ok t.advance

/-- `FX55` LD [I], Vx (R194). -/
def execLdMemVx (x : Reg) (s : State) : Result :=
  finish do
    s.checkRange (x.toNat + 1)
    let t ← s.memWriteBlock (s.indexAddr 0) (s.regsUpTo x)
    .ok t.advance

/-- `FX65` LD Vx, [I] (R195). -/
def execLdVxMem (x : Reg) (s : State) : Result :=
  finish do
    s.checkRange (x.toNat + 1)
    let bytes ← s.memReadBlock (s.indexAddr 0) (x.toNat + 1)
    .ok (s.setRegs bytes).advance

end Sys2Proof.Machine
end

