-- ==== Sys2Proof/Machine/TimerKeypad.lean ====
section
/-! DEFINITION. Keypad skips, the key wait and timer access (spec/45_timer_keypad.md). -/

namespace Sys2Proof.Machine

open Sys2Proof

/-- `EX9E` SKP Vx (R230). -/
def execSkp (x : Reg) (s : State) : Result := .next (s.skipIf (s.keyDown (keyNumber (s.reg x))))

/-- `EXA1` SKNP Vx (R231). -/
def execSknp (x : Reg) (s : State) : Result := .next (s.skipIf (!s.keyDown (keyNumber (s.reg x))))

/-- `FX07` LD Vx, DT (R232). -/
def execLdVxDt (x : Reg) (s : State) : Result := .next (s.setReg x s.dt).advance

/-- `FX0A` LD Vx, K (R233): while no key is down nothing is written and `pc` stays; else the lowest key down. -/
def execLdVxK (x : Reg) (s : State) : Result :=
  match s.lowestKey with
  | none => .next s
  | some k => .next (s.setReg x (BitVec.ofNat 8 k.val)).advance

/-- `FX15` LD DT, Vx (R234). -/
def execLdDtVx (x : Reg) (s : State) : Result := .next (s.setDt (s.reg x)).advance

/-- `FX18` LD ST, Vx (R235): never writes `beep`. -/
def execLdStVx (x : Reg) (s : State) : Result := .next (s.setSt (s.reg x)).advance

end Sys2Proof.Machine
end

