-- ==== Sys2Proof/Machine/Fetch.lean ====
section
/-! DEFINITION. What `cycle()` does before an instruction runs (R120 to R123, R258): the unloaded no-op, the `pc` check,
the big-endian fetch and the decode, in that order; and where an instruction word is stored to be fetched next. -/

namespace Sys2Proof.Machine

open Sys2Proof

/-- The `pc` check of R121: even and below 4096. -/
def pcLegal (pc : Word) : Bool := decide (pc.toNat < 4096) && decide (pc.toNat % 2 = 0)

/-- `Fetch(pc)` of R122: `mem[pc] ++ mem[pc+1]`. -/
def State.fetchWord (s : State) : Word :=
  wordOfBytes (s.mem.read s.pc.toNat) (s.mem.read (s.pc.toNat + 1))

/-- What the start of a cycle comes to. -/
inductive Fetched where
  /-- The core is Unloaded: the cycle changes nothing (R129). -/
  | unloaded
  /-- An instruction to execute. -/
  | run (i : Instr)
  /-- The `pc` check or the decode failed. -/
  | fault (f : Fault)
  deriving DecidableEq, Repr

/-- R120 up to `execute(ins)`, with the checks in the order of R258. -/
def State.fetchNext (s : State) : Fetched :=
  if s.loaded then
    if pcLegal s.pc then
      match decodeWord s.fetchWord with
      | .ok i => .run i
      | .error _ => .fault (.unimplementedOpcode s.fetchWord)
    else .fault (.invalidProgramCounter s.pc)
  else .unloaded

/-- Store a word where the next cycle fetches it, big-endian at `pc`, in a core that counts as loaded (what
`load` does for a program's first word). Where `pc` is no legal fetch address there is no such place and
nothing changes. -/
def State.placeNext (s : State) (w : Word) : State :=
  if pcLegal s.pc then
    { s with mem := s.mem.writeBytes s.pc.toNat [highByte w, lowByte w], loaded := true }
  else s

end Sys2Proof.Machine
end

