-- ==== Sys2Proof/Machine/Step.lean ====
section
/-! DEFINITION. One `cycle()` (R120): the host interface's step. The other operations of R5 are in Machine/Interface.lean. -/

namespace Sys2Proof.Machine

open Sys2Proof

/-- `cycle()` of R120. -/
def step (s : State) : Host.Outcome State Fault Refusal :=
  match s.fetchNext with
  | .unloaded => .next s
  | .run i => exec i s
  | .fault f => raise f

/-- `s` with the instruction whose bits are `w`, numbered as spec/opcode_table.json numbers them, stored where
`step` fetches next. -/
def State.withFetchWord (s : State) (nbits w : Nat) : State := s.placeNext (tableWord nbits w)

end Sys2Proof.Machine
end

