-- ==== Sys2Proof/Machine/Interface.lean ====
section
/-! DEFINITION. The operations of the block that its host calls (R5): the timer unit, the keypad, the exports, `load`, and
`cycle()` beside them, each one indivisible transaction; what a core is after any list of them; and the frame
of R284. `construct` is `State.construct` in Machine/State.lean. -/

namespace Sys2Proof.Machine

open Sys2Proof

/-- `tick_timers()` (R263). It does not look at `loaded`. -/
def tickTimers (s : State) : State :=
  { s with
    dt := if s.dt.toNat > 0 then BitVec.ofNat 8 (s.dt.toNat - 1) else s.dt
    st := if s.st.toNat > 0 then BitVec.ofNat 8 (s.st.toNat - 1) else s.st
    beep := if s.st.toNat = 1 then true else s.beep }

/-- `set_key(k, pressed)` (R267); a key number above 15 is outside the interface and has no step (D21). -/
def setKey (k : Nat) (pressed : Bool) (s : State) : Result :=
  if h : k < 16 then .next { s with keys := s.keys.set k pressed h } else .refused (.keyOutsideInterface k)

/-- `load(rom)` (R282); a second load is outside the interface and has no step (D20). -/
def load (rom : List Byte) (s : State) : Result :=
  if s.loaded then .refused .secondLoad
  else if romFits rom then .next { s with mem := s.mem.writeBytes Config.ROM_BASE rom, loaded := true }
  else raise .romTooLarge

/-- `framebuffer()` (R268): the 2048 cells, row-major; no state changes. -/
def framebuffer (s : State) : Display := s.fb

/-- `consumed_beep()` (R264): read and clear. -/
def consumedBeep (s : State) : Bool × State := (s.beep, { s with beep := false })

/-- `take_redraw()` (R269): read and clear. -/
def takeRedraw (s : State) : Bool × State := (s.redraw, { s with redraw := false })

/-- The operations of R5 on a core. -/
inductive HostOp where
  | cycle
  | load (rom : List Byte)
  | tickTimers
  | setKey (k : Nat) (pressed : Bool)
  | framebuffer
  | consumedBeep
  | takeRedraw
  deriving DecidableEq, Repr

/-- What an operation gives back besides the state (the result column of R5). -/
inductive Reply where
  /-- `Ok`, or none. -/
  | done
  /-- A read-and-clear latch. -/
  | flag (b : Bool)
  /-- The exported cells. -/
  | cells (fb : Display)
  deriving DecidableEq, Repr

/-- Pair the next state of an outcome with a reply. -/
def replying (r : Reply) : Result → Host.Outcome (State × Reply) Fault Refusal
  | .next s => .next (s, r)
  | .fault f => .fault f
  | .refused q => .refused q

/-- One operation of the block, as one transaction (R5). -/
def runOp (op : HostOp) (s : State) : Host.Outcome (State × Reply) Fault Refusal :=
  match op with
  | .cycle => replying .done (step s)
  | .load rom => replying .done (load rom s)
  | .tickTimers => .next (tickTimers s, .done)
  | .setKey k pressed => replying .done (setKey k pressed s)
  | .framebuffer => .next (s, .cells (framebuffer s))
  | .consumedBeep => .next ((consumedBeep s).2, .flag (consumedBeep s).1)
  | .takeRedraw => .next ((takeRedraw s).2, .flag (takeRedraw s).1)

/-- The state of the core after an operation: a fault leaves it exactly as it was (R126), and an operation that
has no step leaves it too. -/
def afterOp (op : HostOp) (s : State) : State :=
  match runOp op s with
  | .next (t, _) => t
  | .fault _ => s
  | .refused _ => s

/-- The state after a list of operations, first to last. The host may interleave them as it likes (D34). -/
def afterOps : List HostOp → State → State
  | [], s => s
  | op :: rest, s => afterOps rest (afterOp op s)

/-- The operations of one displayed frame of the host (R284): `cyclesPerFrame` cycles (a parameter R8 leaves open,
which the core never sees), one tick, the changed keys, and the three reads. -/
def frameOps (cyclesPerFrame : Nat) (changedKeys : List (Fin 16 × Bool)) : List HostOp :=
  List.replicate cyclesPerFrame .cycle ++ [.tickTimers] ++
    changedKeys.map (fun k => .setKey k.1.val k.2) ++ [.takeRedraw, .framebuffer, .consumedBeep]

end Sys2Proof.Machine
end

