-- ==== Sys2Proof/Safety.lean ====
section
/-! DEFINITION. The terms claims are stated in: what a step leaves unchanged, the writers of each piece of state, the
conditions of the faults, the pc classes, the states of R129, and the invariant of a safe run. -/

namespace Sys2Proof

open Sys2Proof.Machine

/-- The pieces of state of spec/10_state.md. -/
inductive Part where
  | mem | v | i | pc | sp | stack | dt | st | keys | fb | redraw | beep | loaded | rng
  deriving DecidableEq, Repr

/-- `t` agrees with `s` on every piece of state but those listed: each byte of memory, each register, and each other
piece whole. -/
def UnchangedExcept (ps : List Part) (s t : State) : Prop :=
  (.mem ∉ ps → ∀ a, t.mem.read a = s.mem.read a) ∧
  (.v ∉ ps → ∀ r, t.reg r = s.reg r) ∧
  (.i ∉ ps → t.i = s.i) ∧
  (.pc ∉ ps → t.pc = s.pc) ∧
  (.sp ∉ ps → t.sp = s.sp) ∧
  (.stack ∉ ps → t.stack = s.stack) ∧
  (.dt ∉ ps → t.dt = s.dt) ∧
  (.st ∉ ps → t.st = s.st) ∧
  (.keys ∉ ps → t.keys = s.keys) ∧
  (.fb ∉ ps → t.fb = s.fb) ∧
  (.redraw ∉ ps → t.redraw = s.redraw) ∧
  (.beep ∉ ps → t.beep = s.beep) ∧
  (.loaded ∉ ps → t.loaded = s.loaded) ∧
  (.rng ∉ ps → t.rng = s.rng)

/-- The registers an instruction names as its destination (R31): V[x], or V[0..x] for FX65. -/
def namesDestination (i : Instr) (r : Reg) : Prop :=
  match i with
  | .ldImm x _ | .addImm x _ | .rnd x _ => r = x
  | .ldReg x _ | .orReg x _ | .andReg x _ | .xorReg x _ | .addReg x _ | .subReg x _ => r = x
  | .shr x _ | .subnReg x _ | .shl x _ => r = x
  | .ldVxDt x | .ldVxK x => r = x
  | .ldVxMem x => r.toNat ≤ x.toNat
  | .cls | .ret | .jp _ | .call _ | .seImm _ _ | .sneImm _ _ | .seReg _ _ | .sneReg _ _ => False
  | .ldI _ | .jpV0 _ | .drw _ _ _ | .skp _ | .sknp _ | .ldDtVx _ | .ldStVx _ => False
  | .addIVx _ | .ldFVx _ | .ldBVx _ | .ldMemVx _ => False

/-- The instructions that write VF as a flag (R32). -/
def writesFlag (i : Instr) : Prop :=
  match i with
  | .orReg _ _ | .andReg _ _ | .xorReg _ _ | .addReg _ _ | .subReg _ _ => True
  | .shr _ _ | .subnReg _ _ | .shl _ _ | .drw _ _ _ => True
  | .cls | .ret | .jp _ | .call _ | .seImm _ _ | .sneImm _ _ | .seReg _ _ | .sneReg _ _ => False
  | .ldImm _ _ | .addImm _ _ | .ldReg _ _ | .ldI _ | .jpV0 _ | .rnd _ _ | .skp _ | .sknp _ => False
  | .ldVxDt _ | .ldVxK _ | .ldDtVx _ | .ldStVx _ | .addIVx _ | .ldFVx _ | .ldBVx _ | .ldMemVx _ => False
  | .ldVxMem _ => False

/-- How many bytes from `I` on an instruction reads or writes (R75). -/
def accessBytes (i : Instr) : Nat :=
  match i with
  | .drw _ _ n => n.toNat
  | .ldBVx _ => 3
  | .ldMemVx x | .ldVxMem x => x.toNat + 1
  | .cls | .ret | .jp _ | .call _ | .seImm _ _ | .sneImm _ _ | .seReg _ _ | .sneReg _ _ => 0
  | .ldImm _ _ | .addImm _ _ | .ldReg _ _ | .orReg _ _ | .andReg _ _ | .xorReg _ _ | .addReg _ _ => 0
  | .subReg _ _ | .shr _ _ | .subnReg _ _ | .shl _ _ | .ldI _ | .jpV0 _ | .rnd _ _ | .skp _ => 0
  | .sknp _ | .ldVxDt _ | .ldVxK _ | .ldDtVx _ | .ldStVx _ | .addIVx _ | .ldFVx _ => 0

/-- The condition under which an instruction raises a fault, and the fault (R250, R258): each instruction has at most
one kind. -/
def raisesFault (i : Instr) (s : State) (f : Fault) : Prop :=
  (∃ nnn, i = .call nnn ∧ s.sp.val = 16 ∧ f = .stackOverflow) ∨
  (i = .ret ∧ s.sp.val = 0 ∧ f = .stackUnderflow) ∨
  (0 < accessBytes i ∧ s.i.toNat + accessBytes i - 1 > 0xFFF ∧ f = .memoryOutOfRange (max s.i.toNat 0x1000))

/-- The classes of R125 an instruction belongs to when it raises nothing. -/
inductive PcClass where
  | sequential | skip | transfer | wait
  deriving DecidableEq, Repr

/-- The table of R125. -/
def pcClass (i : Instr) : PcClass :=
  match i with
  | .cls | .ldImm _ _ | .addImm _ _ | .ldReg _ _ | .orReg _ _ | .andReg _ _ | .xorReg _ _ => .sequential
  | .addReg _ _ | .subReg _ _ | .shr _ _ | .subnReg _ _ | .shl _ _ | .ldI _ | .rnd _ _ => .sequential
  | .drw _ _ _ | .ldVxDt _ | .ldDtVx _ | .ldStVx _ | .addIVx _ | .ldFVx _ => .sequential
  | .ldBVx _ | .ldMemVx _ | .ldVxMem _ => .sequential
  | .seImm _ _ | .sneImm _ _ | .seReg _ _ | .sneReg _ _ | .skp _ | .sknp _ => .skip
  | .jp _ | .call _ | .jpV0 _ | .ret => .transfer
  | .ldVxK _ => .wait

/-- A sprite of `n` rows at (V[x], V[y]) has a 1 bit on cell `j`, wrapped at the edges (R211, R212): bit 7 - b of the byte
at `I + k` is column b of row k. -/
def spriteLights (s : State) (x y : Reg) (n : Nibble) (j : Fin 2048) : Prop :=
  ∃ k, k < n.toNat ∧ ∃ b, b < 8 ∧ (s.mem.read (s.i.toNat + k)).getLsbD (7 - b) = true ∧
    j.val = ((s.reg x).toNat + b) % 64 + 64 * (((s.reg y).toNat + k) % 32)

/-- State AwaitingKey of R129, as R45 derives it: a loaded core at a legal `pc` whose word is FX0A, no key down. -/
def AwaitingKey (s : State) : Prop :=
  s.loaded = true ∧ pcLegal s.pc = true ∧ (∃ x, decodeWord s.fetchWord = .ok (.ldVxK x)) ∧
    ∀ k, s.keyDown k = false

/-- What every safe run keeps: memory in canonical form, `pc` at most 0x10FE (R33), and every occupied stack entry an
even address of at most 4096 (R140). The width of every other piece is its type's. -/
def Inv (s : State) : Prop :=
  s.mem.wf = true ∧ s.pc.toNat ≤ 0x10FE ∧
    ∀ j : Fin 16, j.val < s.sp.val → s.stack[j].toNat % 2 = 0 ∧ s.stack[j].toNat ≤ 4096

/-- The states a core can come to: construction with any seed, then any operations of R5 in any order. -/
inductive Reachable : State → Prop where
  | construct (seed : Nat) : Reachable (State.construct seed)
  | after (op : HostOp) (s : State) : Reachable s → Reachable (afterOp op s)

end Sys2Proof
end

