-- ==== Sys2Proof/Certificates/Slice0/Obligations.lean ====
section
/-! DEFINITION. The statements for the provers, each from the numbered rules of spec/. A docstring names the rule; where a
clause rests on a decision of the spec's own (D<n> of spec/92_eei_decisions.md), on what the spec derives, or
on general knowledge the spec supplies, it says so. -/

open Sys2Proof Sys2Proof.Machine

/-! Encoding and decoding. -/

/-- R92, R94, R95: every instruction, with every operand, is what the decoder reads from its encoding, in the word and
in the bytes as memory holds them. Field positions rest on D27 and sub-codes on D26. -/
def Obligations.DecodeInvertsEncode : Prop :=
  ∀ i : Instr, decodeWord (encode i) = .ok i ∧ ∀ rest, decodeBytes (encodeBytes i ++ rest) = .ok (i, rest)

/-- R94, R95: what a word decodes to encodes to that word, so the syntax loses none of its bits. For 8XY6 and 8XYE, which
ignore y, this is the model's choice: their instructions keep y (DEDUCED, assumption 13). -/
def Obligations.EncodeInvertsDecode : Prop :=
  ∀ (w : Word) (i : Instr), decodeWord w = .ok i → encode i = w

/-- R94, R96, R123: the words of the opcode table, the words R96 does not list, and the words that decode are the same;
an illegal word is rejected with the raw word. The low nibble of 5XYN and 9XYN rests on D6, family 0xE on D26. -/
def Obligations.ExactlyTheTableWordsDecode : Prop :=
  ∀ w : Word, wordLegal w = !wordIllegal w ∧ ((∃ i, decodeWord w = .ok i) ↔ wordLegal w = true) ∧
    (wordIllegal w = true → decodeWord w = .error (.unimplementedOpcode w))

/-- R91, R94, R95: each of the 34 patterns, with every operand in its place, decodes to its instruction. Field positions
rest on D27 and the bytes 9E and A1 on D26 (general knowledge). -/
def Obligations.PatternsDecodeToTheirInstruction : Prop :=
  (∀ x y n : Nibble, decodeWord (BitVec.ofNat 16 (0xD000 + 0x100 * x.toNat + 0x10 * y.toNat + n.toNat)) = .ok (.drw x y n)) ∧
  (∀ nnn : Addr,
    decodeWord (BitVec.ofNat 16 (0x1000 + nnn.toNat)) = .ok (.jp nnn) ∧
    decodeWord (BitVec.ofNat 16 (0x2000 + nnn.toNat)) = .ok (.call nnn) ∧
    decodeWord (BitVec.ofNat 16 (0xA000 + nnn.toNat)) = .ok (.ldI nnn) ∧
    decodeWord (BitVec.ofNat 16 (0xB000 + nnn.toNat)) = .ok (.jpV0 nnn)) ∧
  (∀ (x : Reg) (nn : Byte),
    decodeWord (BitVec.ofNat 16 (0x3000 + 0x100 * x.toNat + nn.toNat)) = .ok (.seImm x nn) ∧
    decodeWord (BitVec.ofNat 16 (0x4000 + 0x100 * x.toNat + nn.toNat)) = .ok (.sneImm x nn) ∧
    decodeWord (BitVec.ofNat 16 (0x6000 + 0x100 * x.toNat + nn.toNat)) = .ok (.ldImm x nn) ∧
    decodeWord (BitVec.ofNat 16 (0x7000 + 0x100 * x.toNat + nn.toNat)) = .ok (.addImm x nn) ∧
    decodeWord (BitVec.ofNat 16 (0xC000 + 0x100 * x.toNat + nn.toNat)) = .ok (.rnd x nn)) ∧
  (∀ x y : Reg,
    decodeWord (BitVec.ofNat 16 (0x5000 + 0x100 * x.toNat + 0x10 * y.toNat)) = .ok (.seReg x y) ∧
    decodeWord (BitVec.ofNat 16 (0x8000 + 0x100 * x.toNat + 0x10 * y.toNat)) = .ok (.ldReg x y) ∧
    decodeWord (BitVec.ofNat 16 (0x8001 + 0x100 * x.toNat + 0x10 * y.toNat)) = .ok (.orReg x y) ∧
    decodeWord (BitVec.ofNat 16 (0x8002 + 0x100 * x.toNat + 0x10 * y.toNat)) = .ok (.andReg x y) ∧
    decodeWord (BitVec.ofNat 16 (0x8003 + 0x100 * x.toNat + 0x10 * y.toNat)) = .ok (.xorReg x y) ∧
    decodeWord (BitVec.ofNat 16 (0x8004 + 0x100 * x.toNat + 0x10 * y.toNat)) = .ok (.addReg x y) ∧
    decodeWord (BitVec.ofNat 16 (0x8005 + 0x100 * x.toNat + 0x10 * y.toNat)) = .ok (.subReg x y) ∧
    decodeWord (BitVec.ofNat 16 (0x8006 + 0x100 * x.toNat + 0x10 * y.toNat)) = .ok (.shr x y) ∧
    decodeWord (BitVec.ofNat 16 (0x8007 + 0x100 * x.toNat + 0x10 * y.toNat)) = .ok (.subnReg x y) ∧
    decodeWord (BitVec.ofNat 16 (0x800E + 0x100 * x.toNat + 0x10 * y.toNat)) = .ok (.shl x y) ∧
    decodeWord (BitVec.ofNat 16 (0x9000 + 0x100 * x.toNat + 0x10 * y.toNat)) = .ok (.sneReg x y)) ∧
  (∀ x : Reg,
    decodeWord (BitVec.ofNat 16 (0xE09E + 0x100 * x.toNat)) = .ok (.skp x) ∧
    decodeWord (BitVec.ofNat 16 (0xE0A1 + 0x100 * x.toNat)) = .ok (.sknp x) ∧
    decodeWord (BitVec.ofNat 16 (0xF007 + 0x100 * x.toNat)) = .ok (.ldVxDt x) ∧
    decodeWord (BitVec.ofNat 16 (0xF00A + 0x100 * x.toNat)) = .ok (.ldVxK x) ∧
    decodeWord (BitVec.ofNat 16 (0xF015 + 0x100 * x.toNat)) = .ok (.ldDtVx x) ∧
    decodeWord (BitVec.ofNat 16 (0xF018 + 0x100 * x.toNat)) = .ok (.ldStVx x) ∧
    decodeWord (BitVec.ofNat 16 (0xF01E + 0x100 * x.toNat)) = .ok (.addIVx x) ∧
    decodeWord (BitVec.ofNat 16 (0xF029 + 0x100 * x.toNat)) = .ok (.ldFVx x) ∧
    decodeWord (BitVec.ofNat 16 (0xF033 + 0x100 * x.toNat)) = .ok (.ldBVx x) ∧
    decodeWord (BitVec.ofNat 16 (0xF055 + 0x100 * x.toNat)) = .ok (.ldMemVx x) ∧
    decodeWord (BitVec.ofNat 16 (0xF065 + 0x100 * x.toNat)) = .ok (.ldVxMem x)) ∧
  decodeWord 0x00E0#16 = .ok .cls ∧ decodeWord 0x00EE#16 = .ok .ret

/-- R92, R94: a word of each family, written out bit by bit from its format, decodes to the instruction it stands for.
The field positions of families 3, 5, 9, C, D and E rest on D27, and EX9E on D26. -/
def Obligations.SampleWordsDecode : Prop :=
  decodeWord 0b0000000011100000#16 = .ok .cls ∧
  decodeWord 0b0001001100100100#16 = .ok (.jp 0x324#12) ∧
  decodeWord 0b0011101001000010#16 = .ok (.seImm 0xA#4 0x42#8) ∧
  decodeWord 0b0101000100100000#16 = .ok (.seReg 0x1#4 0x2#4) ∧
  decodeWord 0b0110001000000101#16 = .ok (.ldImm 0x2#4 0x05#8) ∧
  decodeWord 0b1000000100100100#16 = .ok (.addReg 0x1#4 0x2#4) ∧
  decodeWord 0b1101101010110101#16 = .ok (.drw 0xA#4 0xB#4 0x5#4) ∧
  decodeWord 0b1110000110011110#16 = .ok (.skp 0x1#4) ∧
  decodeWord 0b1111001001010101#16 = .ok (.ldMemVx 0x2#4) ∧
  decodeWord 0b0000000000000000#16 = .error (.unimplementedOpcode 0x0000#16)

/-! The cycle. -/

/-- R120, R122, R124: in a loaded core at an even `pc` below 4096, when the big-endian word at `pc` decodes to an
instruction, the cycle is that instruction's execution on the state as it stands, with nothing around it. -/
def Obligations.StepRunsTheDecodedInstruction : Prop :=
  ∀ (s : State) (i : Instr), s.loaded = true → s.pc.toNat < 4096 → s.pc.toNat % 2 = 0 →
    decodeWord (BitVec.ofNat 16 (0x100 * (s.mem.read s.pc.toNat).toNat + (s.mem.read (s.pc.toNat + 1)).toNat)) = .ok i →
    step s = exec i s

/-- R121: before fetching, the cycle of a loaded core raises `InvalidProgramCounter(pc)` exactly when `pc` is odd or at
least 4096; at every other `pc` both fetch bytes lie within memory. -/
def Obligations.IllegalPcFaults : Prop :=
  ∀ s : State, s.loaded = true →
    (∀ p, step s = .fault (.invalidProgramCounter p) ↔ (s.pc.toNat ≥ 4096 ∨ s.pc.toNat % 2 = 1) ∧ p = s.pc) ∧
    (¬(s.pc.toNat ≥ 4096 ∨ s.pc.toNat % 2 = 1) → s.pc.toNat + 1 ≤ 0xFFF)

/-- R96, R123, R252: the cycle raises `UnimplementedOpcode(op)` exactly when the core is loaded, `pc` is legal, and the
word at `pc` is `op` and is one R96 lists. The list rests on D6 and D26. -/
def Obligations.IllegalWordFaults : Prop :=
  ∀ (s : State) (op : Word), step s = .fault (.unimplementedOpcode op) ↔
    s.loaded = true ∧ s.pc.toNat < 4096 ∧ s.pc.toNat % 2 = 0 ∧
      op = wordOfBytes (s.mem.read s.pc.toNat) (s.mem.read (s.pc.toNat + 1)) ∧ wordIllegal op = true

/-- R43: `loaded` is 0 after construction; while it is 0 the cycle is a no-op; a successful `load` sets it; and no
operation clears it. -/
def Obligations.LoadedIsSetOnceAndGatesTheCycle : Prop :=
  (∀ seed, (State.construct seed).loaded = false) ∧
  (∀ s : State, s.loaded = false → step s = .next s) ∧
  (∀ (s t : State) (rom : List Byte), load rom s = .next t → t.loaded = true) ∧
  (∀ (s : State) (op : HostOp), s.loaded = true → (afterOp op s).loaded = true) ∧
  (∀ (s : State) (op : HostOp), (∀ rom, op ≠ .load rom) → (afterOp op s).loaded = s.loaded)

/-- R250, R258: an instruction raises a fault exactly under its own condition (CALL on a full stack, RET on an empty one,
an access past 0xFFF), completes with a next state exactly when it raises none, and is never refused. The range
fault rests on D7 and the order on D19. -/
def Obligations.InstructionsCompleteOrFaultExactly : Prop :=
  ∀ (i : Instr) (s : State),
    (∀ f, exec i s = .fault f ↔ raisesFault i s f) ∧
    ((∃ t, exec i s = .next t) ↔ ∀ f, ¬raisesFault i s f) ∧
    (∀ q, exec i s ≠ .refused q)

/-- R258: which fault a cycle reports: none in an unloaded core, else the `pc` check, else the decode, else the
instruction's own check; and a cycle is never refused. The order rests on D19. -/
def Obligations.CycleReportsTheFirstFailedCheck : Prop :=
  ∀ (s : State), (∀ q, step s ≠ .refused q) ∧
    ∀ f, step s = .fault f ↔
      s.loaded = true ∧
      if pcLegal s.pc = true then
        if wordIllegal s.fetchWord = true then f = .unimplementedOpcode s.fetchWord
        else ∃ i, decodeWord s.fetchWord = .ok i ∧ raisesFault i s f
      else f = .invalidProgramCounter s.pc

/-- R126: a cycle that raises a fault leaves the core's state as it was, so the next cycle raises the same fault. Rests on
D18. -/
def Obligations.FaultLeavesTheStateAndRepeats : Prop :=
  ∀ (s : State) (f : Fault), step s = .fault f →
    afterOp .cycle s = s ∧ runOp .cycle (afterOp .cycle s) = .fault f

/-! Register loads and the ALU. -/

/-- R160: `6XNN` loads the immediate byte, changes no flag and raises nothing. -/
def Obligations.LdImmLoadsTheImmediate : Prop :=
  ∀ (s : State) (x : Reg) (nn : Byte),
    decodeWord (BitVec.ofNat 16 (0x6000 + 0x100 * x.toNat + nn.toNat)) = .ok (.ldImm x nn) ∧
    ∃ t, exec (.ldImm x nn) s = .next t ∧ t.reg x = nn ∧ (∀ r, r ≠ x → t.reg r = s.reg r) ∧
      t.pc = s.pc + 2#16 ∧ UnchangedExcept [.v, .pc] s t

/-- R161: `7XNN` adds the immediate modulo 256; VF takes no carry. -/
def Obligations.AddImmWrapsWithoutFlag : Prop :=
  ∀ (s : State) (x : Reg) (nn : Byte),
    decodeWord (BitVec.ofNat 16 (0x7000 + 0x100 * x.toNat + nn.toNat)) = .ok (.addImm x nn) ∧
    ∃ t, exec (.addImm x nn) s = .next t ∧ (t.reg x).toNat = ((s.reg x).toNat + nn.toNat) % 256 ∧
      (∀ r, r ≠ x → t.reg r = s.reg r) ∧ t.pc = s.pc + 2#16 ∧ UnchangedExcept [.v, .pc] s t

/-- R162: `8XY0` copies V[y] to V[x] and writes no flag (D5). -/
def Obligations.LdRegCopiesWithoutFlag : Prop :=
  ∀ (s : State) (x y : Reg), ∃ t, exec (.ldReg x y) s = .next t ∧ t.reg x = s.reg y ∧
    (∀ r, r ≠ x → t.reg r = s.reg r) ∧ t.pc = s.pc + 2#16 ∧ UnchangedExcept [.v, .pc] s t

/-- R163, R164, R165: OR, AND and XOR combine the bits of V[x] and V[y] into V[x] and set VF to 0 (C5 of
spec/90_conflicts.md). That the flag is written last (R173), so that VF ends 0 when x is VF, rests on D3 (assumption 18). -/
def Obligations.LogicOpsCombineBitsAndClearVF : Prop :=
  ∀ (s : State) (x y : Reg),
    (decodeWord (BitVec.ofNat 16 (0x8001 + 0x100 * x.toNat + 0x10 * y.toNat)) = .ok (.orReg x y) ∧
      ∃ t, exec (.orReg x y) s = .next t ∧ t.reg VF = 0x00#8 ∧
        (x ≠ VF → ∀ k, k < 8 → (t.reg x).getLsbD k = ((s.reg x).getLsbD k || (s.reg y).getLsbD k)) ∧
        (∀ r, r ≠ x → r ≠ VF → t.reg r = s.reg r) ∧ t.pc = s.pc + 2#16 ∧ UnchangedExcept [.v, .pc] s t) ∧
    (decodeWord (BitVec.ofNat 16 (0x8002 + 0x100 * x.toNat + 0x10 * y.toNat)) = .ok (.andReg x y) ∧
      ∃ t, exec (.andReg x y) s = .next t ∧ t.reg VF = 0x00#8 ∧
        (x ≠ VF → ∀ k, k < 8 → (t.reg x).getLsbD k = ((s.reg x).getLsbD k && (s.reg y).getLsbD k)) ∧
        (∀ r, r ≠ x → r ≠ VF → t.reg r = s.reg r) ∧ t.pc = s.pc + 2#16 ∧ UnchangedExcept [.v, .pc] s t) ∧
    (decodeWord (BitVec.ofNat 16 (0x8003 + 0x100 * x.toNat + 0x10 * y.toNat)) = .ok (.xorReg x y) ∧
      ∃ t, exec (.xorReg x y) s = .next t ∧ t.reg VF = 0x00#8 ∧
        (x ≠ VF → ∀ k, k < 8 → (t.reg x).getLsbD k = ((s.reg x).getLsbD k != (s.reg y).getLsbD k)) ∧
        (∀ r, r ≠ x → r ≠ VF → t.reg r = s.reg r) ∧ t.pc = s.pc + 2#16 ∧ UnchangedExcept [.v, .pc] s t)

/-- R166: `8XY4` adds modulo 256 and VF ends holding the carry. That the flag is written last, and operands read first,
rests on D3. -/
def Obligations.AddRegSetsCarry : Prop :=
  ∀ (s : State) (x y : Reg), ∃ t, exec (.addReg x y) s = .next t ∧
    t.reg VF = (if (s.reg x).toNat + (s.reg y).toNat > 255 then 0x01#8 else 0x00#8) ∧
    (x ≠ VF → (t.reg x).toNat = ((s.reg x).toNat + (s.reg y).toNat) % 256) ∧
    (∀ r, r ≠ x → r ≠ VF → t.reg r = s.reg r) ∧ t.pc = s.pc + 2#16 ∧ UnchangedExcept [.v, .pc] s t

/-- R167, R169: `8XY5` and `8XY7` subtract modulo 256, one way and the other, and VF ends holding NOT borrow. The flag's
order rests on D3, the flag of `8XY7` on D4. -/
def Obligations.SubtractionsSetNotBorrow : Prop :=
  ∀ (s : State) (x y : Reg),
    (∃ t, exec (.subReg x y) s = .next t ∧
      t.reg VF = (if (s.reg x).toNat ≥ (s.reg y).toNat then 0x01#8 else 0x00#8) ∧
      (x ≠ VF → ((t.reg x).toNat : Int) = ((s.reg x).toNat - (s.reg y).toNat : Int) % 256) ∧
      (∀ r, r ≠ x → r ≠ VF → t.reg r = s.reg r) ∧ t.pc = s.pc + 2#16 ∧ UnchangedExcept [.v, .pc] s t) ∧
    (∃ t, exec (.subnReg x y) s = .next t ∧
      t.reg VF = (if (s.reg y).toNat ≥ (s.reg x).toNat then 0x01#8 else 0x00#8) ∧
      (x ≠ VF → ((t.reg x).toNat : Int) = ((s.reg y).toNat - (s.reg x).toNat : Int) % 256) ∧
      (∀ r, r ≠ x → r ≠ VF → t.reg r = s.reg r) ∧ t.pc = s.pc + 2#16 ∧ UnchangedExcept [.v, .pc] s t)

/-- R168, R170: `8XY6` and `8XYE` shift V[x] in place by one and VF ends holding the bit shifted out; any y gives the same
(R97). The operand rests on D2, the flag's order on D3. -/
def Obligations.ShiftsMoveVxAndKeepTheBitOut : Prop :=
  ∀ (s : State) (x y : Reg),
    (∃ t, exec (.shr x y) s = .next t ∧ (t.reg VF).toNat = (s.reg x).toNat % 2 ∧
      (x ≠ VF → (t.reg x).toNat = (s.reg x).toNat / 2) ∧
      (∀ r, r ≠ x → r ≠ VF → t.reg r = s.reg r) ∧ t.pc = s.pc + 2#16 ∧ UnchangedExcept [.v, .pc] s t ∧
      ∀ y', exec (.shr x y') s = .next t) ∧
    (∃ t, exec (.shl x y) s = .next t ∧ (t.reg VF).toNat = (s.reg x).toNat / 128 ∧
      (x ≠ VF → (t.reg x).toNat = (s.reg x).toNat * 2 % 256) ∧
      (∀ r, r ≠ x → r ≠ VF → t.reg r = s.reg r) ∧ t.pc = s.pc + 2#16 ∧ UnchangedExcept [.v, .pc] s t ∧
      ∀ y', exec (.shl x y') s = .next t)

/-- R171: `CXNN` draws exactly once from the generator and masks the byte. The generator is the open parameter of D13:
the statement holds for whatever it gives (assumption 1). -/
def Obligations.RndDrawsOnceAndMasks : Prop :=
  ∀ (s : State) (x : Reg) (nn : Byte), ∃ t, exec (.rnd x nn) s = .next t ∧
    (∀ k, k < 8 → (t.reg x).getLsbD k = ((Config.rngNext s.rng).1.getLsbD k && nn.getLsbD k)) ∧
    t.rng = (Config.rngNext s.rng).2 ∧ (∀ r, r ≠ x → t.reg r = s.reg r) ∧ t.pc = s.pc + 2#16 ∧
    UnchangedExcept [.v, .rng, .pc] s t

/-! Control flow. -/

/-- R141: `1NNN` jumps to nnn, odd or even, changing nothing else, so that a jump to itself changes nothing at all; if nnn is
odd the next cycle of a loaded core raises `InvalidProgramCounter(nnn)`. -/
def Obligations.JpGoesToItsAddress : Prop :=
  ∀ (s : State) (nnn : Addr),
    decodeWord (BitVec.ofNat 16 (0x1000 + nnn.toNat)) = .ok (.jp nnn) ∧
    ∃ t, exec (.jp nnn) s = .next t ∧ t.pc.toNat = nnn.toNat ∧ UnchangedExcept [.pc] s t ∧
      (s.pc.toNat = nnn.toNat → t = s) ∧
      (s.loaded = true → nnn.toNat % 2 = 1 → step t = .fault (.invalidProgramCounter (BitVec.ofNat 16 nnn.toNat)))

/-- R142, R253: with fewer than 16 entries `2NNN` pushes `pc + 2` and goes to nnn; with 16 it raises `StackOverflow`.
The push convention rests on D15. -/
def Obligations.CallPushesTheReturnAddress : Prop :=
  ∀ (s : State) (nnn : Addr),
    (s.sp.val < 16 → ∃ t, exec (.call nnn) s = .next t ∧ t.sp.val = s.sp.val + 1 ∧
      (∀ j : Fin 16, t.stack[j] = if j.val = s.sp.val then s.pc + 2#16 else s.stack[j]) ∧
      t.pc.toNat = nnn.toNat ∧ UnchangedExcept [.sp, .stack, .pc] s t) ∧
    (s.sp.val = 16 → exec (.call nnn) s = .fault .stackOverflow)

/-- R140, R254: with an entry on the stack `00EE` takes the top entry as `pc` as it is and leaves the entry; with none it
raises `StackUnderflow`. The pop convention rests on D15. -/
def Obligations.RetPopsTheTopEntry : Prop :=
  ∀ s : State,
    (∀ j : Fin 16, s.sp.val = j.val + 1 → ∃ t, exec .ret s = .next t ∧ t.sp.val = j.val ∧ t.pc = s.stack[j] ∧
      UnchangedExcept [.sp, .pc] s t) ∧
    (s.sp.val = 0 → exec .ret s = .fault .stackUnderflow)

/-- R143, R144: the immediate skips pass one word exactly when V[x] equals, or differs from, nn; nothing but `pc` changes. -/
def Obligations.ImmediateSkipsPassOneWord : Prop :=
  ∀ (s : State) (x : Reg) (nn : Byte),
    (∃ t, exec (.seImm x nn) s = .next t ∧ t.pc = (if s.reg x = nn then s.pc + 4#16 else s.pc + 2#16) ∧
      UnchangedExcept [.pc] s t) ∧
    (∃ t, exec (.sneImm x nn) s = .next t ∧ t.pc = (if s.reg x = nn then s.pc + 2#16 else s.pc + 4#16) ∧
      UnchangedExcept [.pc] s t)

/-- R145, R146: the register skips pass one word exactly when V[x] and V[y] are equal, or differ, so that with x = y SE
always skips and SNE never does; nothing but `pc` changes. -/
def Obligations.RegisterSkipsPassOneWord : Prop :=
  ∀ (s : State) (x y : Reg),
    (∃ t, exec (.seReg x y) s = .next t ∧ t.pc = (if s.reg x = s.reg y then s.pc + 4#16 else s.pc + 2#16) ∧
      UnchangedExcept [.pc] s t ∧ (x = y → t.pc = s.pc + 4#16)) ∧
    (∃ t, exec (.sneReg x y) s = .next t ∧ t.pc = (if s.reg x = s.reg y then s.pc + 2#16 else s.pc + 4#16) ∧
      UnchangedExcept [.pc] s t ∧ (x = y → t.pc = s.pc + 2#16))

/-- R147: `BNNN` goes to nnn + V0, unmasked, so to at most 0x10FE. That the target is stored unchecked rests on D31. -/
def Obligations.JpV0AddsV0Unmasked : Prop :=
  ∀ (s : State) (nnn : Addr), ∃ t, exec (.jpV0 nnn) s = .next t ∧ t.pc.toNat = nnn.toNat + (s.reg 0x0#4).toNat ∧
    t.pc.toNat ≤ 0x10FE ∧ UnchangedExcept [.pc] s t

/-- R253, R254, R256: CALL raises `StackOverflow` exactly when `sp = 16`, RET `StackUnderflow` exactly when `sp = 0`, and
`load` in an unloaded core `RomTooLarge` exactly when the ROM is longer than 3584 bytes, which then writes nothing. -/
def Obligations.StackAndRomFaultsHaveTheirConditions : Prop :=
  (∀ (s : State) (nnn : Addr), exec (.call nnn) s = .fault .stackOverflow ↔ s.sp.val = 16) ∧
  (∀ s : State, exec .ret s = .fault .stackUnderflow ↔ s.sp.val = 0) ∧
  (∀ (s : State) (rom : List Byte), s.loaded = false →
    (load rom s = .fault .romTooLarge ↔ rom.length > 4096 - 0x200) ∧
    (rom.length > 4096 - 0x200 → afterOp (.load rom) s = s ∧ (afterOp (.load rom) s).loaded = false))

/-! The index register and memory. -/

/-- R190: `ANNN` sets I to nnn. -/
def Obligations.LdISetsTheIndex : Prop :=
  ∀ (s : State) (nnn : Addr),
    decodeWord (BitVec.ofNat 16 (0xA000 + nnn.toNat)) = .ok (.ldI nnn) ∧
    ∃ t, exec (.ldI nnn) s = .next t ∧ t.i.toNat = nnn.toNat ∧ t.pc = s.pc + 2#16 ∧ UnchangedExcept [.i, .pc] s t

/-- R191: `FX1E` adds V[x] to I modulo 65536 and writes no flag (D8). -/
def Obligations.AddIWrapsAtSixteenBits : Prop :=
  ∀ (s : State) (x : Reg), ∃ t, exec (.addIVx x) s = .next t ∧
    t.i.toNat = (s.i.toNat + (s.reg x).toNat) % 65536 ∧ t.pc = s.pc + 2#16 ∧ UnchangedExcept [.i, .pc] s t

/-- R192: `FX29` sets I to five times the low nibble of V[x], which is at most 0x4B (D9). -/
def Obligations.LdFPointsAtTheGlyph : Prop :=
  ∀ (s : State) (x : Reg), ∃ t, exec (.ldFVx x) s = .next t ∧ t.i.toNat = 5 * ((s.reg x).toNat % 16) ∧
    t.i.toNat ≤ 0x4B ∧ t.pc = s.pc + 2#16 ∧ UnchangedExcept [.i, .pc] s t

/-- R193: with `I .. I+2` in memory `FX33` stores the three decimal digits of V[x] there, hundreds first, and no other byte.
The digits' order is the spec's general knowledge (D11). -/
def Obligations.BcdStoresThreeDigits : Prop :=
  ∀ (s : State) (x : Reg), s.i.toNat + 2 ≤ 0xFFF → ∃ t, exec (.ldBVx x) s = .next t ∧
    (t.mem.read s.i.toNat).toNat = (s.reg x).toNat / 100 ∧
    (t.mem.read (s.i.toNat + 1)).toNat = (s.reg x).toNat / 10 % 10 ∧
    (t.mem.read (s.i.toNat + 2)).toNat = (s.reg x).toNat % 10 ∧
    (∀ a, a < s.i.toNat ∨ s.i.toNat + 2 < a → t.mem.read a = s.mem.read a) ∧
    t.pc = s.pc + 2#16 ∧ UnchangedExcept [.mem, .pc] s t

/-- R194: with `I .. I+x` in memory `FX55` stores V[0] to V[x] there and no other byte; I stays. -/
def Obligations.StoreWritesV0ToVx : Prop :=
  ∀ (s : State) (x : Reg), s.i.toNat + x.toNat ≤ 0xFFF → ∃ t, exec (.ldMemVx x) s = .next t ∧
    (∀ r : Reg, r.toNat ≤ x.toNat → t.mem.read (s.i.toNat + r.toNat) = s.reg r) ∧
    (∀ a, a < s.i.toNat ∨ s.i.toNat + x.toNat < a → t.mem.read a = s.mem.read a) ∧
    t.pc = s.pc + 2#16 ∧ UnchangedExcept [.mem, .pc] s t

/-- R195: with `I .. I+x` in memory `FX65` loads V[0] to V[x] from there, and no other register; I stays. -/
def Obligations.LoadReadsV0ToVx : Prop :=
  ∀ (s : State) (x : Reg), s.i.toNat + x.toNat ≤ 0xFFF → ∃ t, exec (.ldVxMem x) s = .next t ∧
    (∀ r : Reg, t.reg r = if r.toNat ≤ x.toNat then s.mem.read (s.i.toNat + r.toNat) else s.reg r) ∧
    t.pc = s.pc + 2#16 ∧ UnchangedExcept [.v, .pc] s t

/-- R75, R255: an access that reaches past 0xFFF raises `MemoryOutOfRange` with the larger of I and 0x1000, for each of the
four instructions that use I; DXYN with n = 0 accesses nothing. Rests on D7. -/
def Obligations.AccessPastMemoryFaults : Prop :=
  ∀ (s : State) (x y : Reg) (n : Nibble),
    (0 < n.toNat → s.i.toNat + n.toNat - 1 > 0xFFF →
      exec (.drw x y n) s = .fault (.memoryOutOfRange (max s.i.toNat 0x1000))) ∧
    (s.i.toNat + 2 > 0xFFF → exec (.ldBVx x) s = .fault (.memoryOutOfRange (max s.i.toNat 0x1000))) ∧
    (s.i.toNat + x.toNat > 0xFFF →
      exec (.ldMemVx x) s = .fault (.memoryOutOfRange (max s.i.toNat 0x1000)) ∧
      exec (.ldVxMem x) s = .fault (.memoryOutOfRange (max s.i.toNat 0x1000)))

/-- §8 of the source, S8 of spec/95_test_vectors.md: FX55, then whatever is done to the registers, then FX65 with the same x
and I, restores V[0] to V[x]. -/
def Obligations.StoreThenLoadRestoresRegisters : Prop :=
  ∀ (s t u : State) (x : Reg), exec (.ldMemVx x) s = .next t → u.mem = t.mem → u.i = s.i →
    ∃ w, exec (.ldVxMem x) u = .next w ∧ ∀ r : Reg, r.toNat ≤ x.toNat → w.reg r = s.reg r

/-- §8 of the source, S7 of spec/95_test_vectors.md: CALL and then RET comes back to the instruction after the CALL with the
stack as deep as before. -/
def Obligations.CallThenRetComesBack : Prop :=
  ∀ (s t u : State) (nnn : Addr), exec (.call nnn) s = .next t → u.sp = t.sp → u.stack = t.stack →
    ∃ w, exec .ret u = .next w ∧ w.pc = s.pc + 2#16 ∧ w.sp = s.sp

/-! The display. -/

/-- R210: `00E0` clears every cell and sets redraw, whatever the buffer held (the latch rests on D16). -/
def Obligations.ClsClearsEveryCell : Prop :=
  ∀ s : State, ∃ t, exec .cls s = .next t ∧ (∀ j : Fin 2048, t.fb[j] = false) ∧ t.redraw = true ∧
    t.pc = s.pc + 2#16 ∧ UnchangedExcept [.fb, .redraw, .pc] s t

/-- R211, R212: with the sprite's bytes in memory `DXYN` flips exactly the cells under the sprite's 1 bits, wrapped at the
edges, sets VF to 1 if one of them was 1 and else to 0, and sets redraw. The operands' places and the order of a
row's bits are the spec's general knowledge (D23). -/
def Obligations.DrwFlipsTheSpritesCells : Prop :=
  ∀ (s : State) (x y : Reg) (n : Nibble), (n.toNat = 0 ∨ s.i.toNat + n.toNat - 1 ≤ 0xFFF) →
    ∃ t, exec (.drw x y n) s = .next t ∧
      (∀ j : Fin 2048, spriteLights s x y n j → t.fb[j] = !s.fb[j]) ∧
      (∀ j : Fin 2048, ¬spriteLights s x y n j → t.fb[j] = s.fb[j]) ∧
      ((∃ j : Fin 2048, spriteLights s x y n j ∧ s.fb[j] = true) → t.reg VF = 0x01#8) ∧
      ((¬∃ j : Fin 2048, spriteLights s x y n j ∧ s.fb[j] = true) → t.reg VF = 0x00#8) ∧
      (∀ r, r ≠ VF → t.reg r = s.reg r) ∧ t.redraw = true ∧ t.pc = s.pc + 2#16 ∧
      UnchangedExcept [.v, .fb, .redraw, .pc] s t

/-- §8 of the source, S6 of spec/95_test_vectors.md: drawing the same sprite twice at the same place restores the buffer,
and the second draw reports a collision exactly when the first set some cell. (Where the first draw only cleared
cells the second sets them again and reports none: assumption 15 on the sentence R212 derives from R211.) -/
def Obligations.DrawingTwiceRestoresTheBuffer : Prop :=
  ∀ (s t u : State) (x y : Reg) (n : Nibble), exec (.drw x y n) s = .next t →
    u.fb = t.fb → u.mem = s.mem → u.i = s.i → u.reg x = s.reg x → u.reg y = s.reg y →
    ∃ w, exec (.drw x y n) u = .next w ∧ w.fb = s.fb ∧
      (w.reg VF = 0x01#8 ↔ ∃ j : Fin 2048, s.fb[j] = false ∧ t.fb[j] = true)

/-- R213: only `00E0` and `DXYN` change the display, no operation of the host does, and `framebuffer()` gives its cells. -/
def Obligations.OnlyClsAndDrwChangeTheDisplay : Prop :=
  (∀ (i : Instr) (s t : State), exec i s = .next t → t.fb ≠ s.fb → i = .cls ∨ ∃ x y n, i = .drw x y n) ∧
  (∀ (op : HostOp) (s : State), op ≠ .cycle → (afterOp op s).fb = s.fb) ∧
  (∀ s : State, runOp .framebuffer s = .next (s, .cells s.fb))

/-! The keypad and the timers. -/

/-- R230, R231: `EX9E` and `EXA1` pass one word exactly when the key numbered by the low nibble of V[x] is down, or up;
nothing but `pc` changes. Their sub-codes rest on D26. -/
def Obligations.KeySkipsTestTheLowNibblesKey : Prop :=
  ∀ (s : State) (x : Reg) (k : Fin 16), (s.reg x).toNat % 16 = k.val →
    (∃ t, exec (.skp x) s = .next t ∧ t.pc = (if s.keys[k] = true then s.pc + 4#16 else s.pc + 2#16) ∧
      UnchangedExcept [.pc] s t) ∧
    (∃ t, exec (.sknp x) s = .next t ∧ t.pc = (if s.keys[k] = true then s.pc + 2#16 else s.pc + 4#16) ∧
      UnchangedExcept [.pc] s t)

/-- R232: `FX07` reads the delay timer, which only `tick_timers()` and FX15 change. -/
def Obligations.LdVxDtReadsTheDelayTimer : Prop :=
  ∀ (s : State) (x : Reg),
    decodeWord (BitVec.ofNat 16 (0xF007 + 0x100 * x.toNat)) = .ok (.ldVxDt x) ∧
    (∃ t, exec (.ldVxDt x) s = .next t ∧ t.reg x = s.dt ∧ (∀ r, r ≠ x → t.reg r = s.reg r) ∧
      t.pc = s.pc + 2#16 ∧ UnchangedExcept [.v, .pc] s t) ∧
    (∀ i u, exec i s = .next u → u.dt ≠ s.dt → ∃ y, i = .ldDtVx y) ∧
    (∀ op, op ≠ .cycle → op ≠ .tickTimers → (afterOp op s).dt = s.dt)

/-- R233: while no key is down `FX0A` completes and changes nothing, `pc` included; else V[x] takes the lowest-numbered key
that is down and `pc` moves on. The choice of key, and that no release is needed, rest on D12. -/
def Obligations.LdVxKWaitsForTheLowestKey : Prop :=
  ∀ (s : State) (x : Reg),
    ((∀ k : Fin 16, s.keys[k] = false) → exec (.ldVxK x) s = .next s) ∧
    (∀ k : Fin 16, s.keys[k] = true → (∀ j : Fin 16, j < k → s.keys[j] = false) →
      ∃ t, exec (.ldVxK x) s = .next t ∧ (t.reg x).toNat = k.val ∧ (∀ r, r ≠ x → t.reg r = s.reg r) ∧
        t.pc = s.pc + 2#16 ∧ UnchangedExcept [.v, .pc] s t)

/-- R45, R270: in AwaitingKey every cycle changes nothing, and after the host presses a key one cycle latches it and moves
on. R45 derives the state; the rule rests on D12 and D31. -/
def Obligations.AwaitingKeyEndsWhenAKeyIsPressed : Prop :=
  ∀ s : State, AwaitingKey s →
    step s = .next s ∧
    ∀ k : Fin 16, ∃ x t, step (afterOp (.setKey k.val true) s) = .next t ∧ (t.reg x).toNat = k.val ∧
      t.pc = s.pc + 2#16 ∧ decodeWord s.fetchWord = .ok (.ldVxK x)

/-- R234: `FX15` writes the delay timer. -/
def Obligations.LdDtVxWritesTheDelayTimer : Prop :=
  ∀ (s : State) (x : Reg),
    decodeWord (BitVec.ofNat 16 (0xF015 + 0x100 * x.toNat)) = .ok (.ldDtVx x) ∧
    ∃ t, exec (.ldDtVx x) s = .next t ∧ t.dt = s.reg x ∧ t.pc = s.pc + 2#16 ∧ UnchangedExcept [.dt, .pc] s t

/-- R235: `FX18` writes the sound timer and never raises `beep`, a 0 included (D17). -/
def Obligations.LdStVxWritesTheSoundTimer : Prop :=
  ∀ (s : State) (x : Reg), ∃ t, exec (.ldStVx x) s = .next t ∧ t.st = s.reg x ∧ t.beep = s.beep ∧
    t.pc = s.pc + 2#16 ∧ UnchangedExcept [.st, .pc] s t

/-- R263, R36, R37: after n ticks each timer has counted down by n and stopped at 0, `beep` is set exactly if it was, or the
sound timer came from 1 to 0 on the way, and nothing else changed. Rests on D17 and D28. -/
def Obligations.TicksCountDownAndBeepOnce : Prop :=
  ∀ (n : Nat) (s : State),
    (tickTimers^[n] s).dt.toNat = s.dt.toNat - n ∧ (tickTimers^[n] s).st.toNat = s.st.toNat - n ∧
    ((tickTimers^[n] s).beep = true ↔ s.beep = true ∨ (0 < s.st.toNat ∧ s.st.toNat ≤ n)) ∧
    UnchangedExcept [.dt, .st, .beep] s (tickTimers^[n] s)

/-! The writers of each piece of state. -/

/-- R31, R32: a register changes only as a destination, or VF as the flag of an instruction of R32, and those leave VF
exactly 0 or 1. The set of flag writers and the order rest on D3, D5 and D8. -/
def Obligations.RegistersChangeOnlyAsDestinationOrFlag : Prop :=
  ∀ (i : Instr) (s t : State), exec i s = .next t →
    (∀ r, t.reg r ≠ s.reg r → namesDestination i r ∨ (writesFlag i ∧ r = VF)) ∧
    (writesFlag i → t.reg VF = 0x00#8 ∨ t.reg VF = 0x01#8)

/-- R34 to R38, R44, R75, R128: each other piece of state changes only by the instructions the spec names as its writers,
and no instruction changes `keys`, `beep` or `loaded`. -/
def Obligations.StateChangesOnlyByItsWriters : Prop :=
  ∀ (i : Instr) (s t : State), exec i s = .next t →
    (t.i ≠ s.i → (∃ nnn, i = .ldI nnn) ∨ (∃ x, i = .addIVx x) ∨ ∃ x, i = .ldFVx x) ∧
    (t.sp ≠ s.sp → (∃ nnn, i = .call nnn) ∨ i = .ret) ∧
    (t.stack ≠ s.stack → ∃ nnn, i = .call nnn) ∧
    (t.dt ≠ s.dt → ∃ x, i = .ldDtVx x) ∧
    (t.st ≠ s.st → ∃ x, i = .ldStVx x) ∧
    (t.rng ≠ s.rng → ∃ x nn, i = .rnd x nn) ∧
    (t.redraw ≠ s.redraw → i = .cls ∨ ∃ x y n, i = .drw x y n) ∧
    (∀ a, t.mem.read a ≠ s.mem.read a → (∃ x, i = .ldBVx x) ∨ ∃ x, i = .ldMemVx x) ∧
    t.keys = s.keys ∧ t.beep = s.beep ∧ t.loaded = s.loaded

/-- R125: every instruction that raises nothing moves `pc` as its class says. That `pc + 2` and `pc + 4` do not wrap at a
legal `pc` is the spec's own derivation. -/
def Obligations.PcMovesByItsClass : Prop :=
  ∀ (i : Instr) (s t : State), exec i s = .next t →
    match pcClass i with
    | .sequential => t.pc = s.pc + 2#16
    | .skip => t.pc = s.pc + 2#16 ∨ t.pc = s.pc + 4#16
    | .wait => t.pc = if ∀ k, s.keyDown k = false then s.pc else s.pc + 2#16
    | .transfer =>
      (∀ nnn, i = .jp nnn → t.pc.toNat = nnn.toNat) ∧ (∀ nnn, i = .call nnn → t.pc.toNat = nnn.toNat) ∧
      (∀ nnn, i = .jpV0 nnn → t.pc.toNat = nnn.toNat + (s.reg 0x0#4).toNat) ∧
      (i = .ret → ∀ j : Fin 16, s.sp.val = j.val + 1 → t.pc = s.stack[j])

/-- R37, R265, R41, R42: no instruction reads ST, `beep` or `redraw`: with other values there every instruction does the same
to the rest of the state, and raises the same fault. -/
def Obligations.NoInstructionReadsSoundTimerOrLatches : Prop :=
  ∀ (i : Instr) (s t : State) (st : Byte) (beep redraw : Bool),
    (exec i s = .next t → ∃ u, exec i { s with st := st, beep := beep, redraw := redraw } = .next u ∧
      UnchangedExcept [.st, .beep, .redraw] t u) ∧
    (∀ f, exec i s = .fault f → exec i { s with st := st, beep := beep, redraw := redraw } = .fault f)

/-! Reset, load and the host's operations. -/

/-- R47, R280: the state after construction with any seed. The values the source does not state rest on D14, the latches on
D16 and D17, the glyph bytes are the spec's general knowledge (D10), and the generator is open (D13). -/
def Obligations.ConstructionGivesTheResetValues : Prop :=
  ∀ seed, let s := State.construct seed
    (∀ r, s.reg r = 0x00#8) ∧ s.i = 0x0000#16 ∧ s.pc = 0x0200#16 ∧ s.sp.val = 0 ∧
    (∀ j : Fin 16, s.stack[j] = 0x0000#16) ∧ s.dt = 0x00#8 ∧ s.st = 0x00#8 ∧ (∀ k, s.keyDown k = false) ∧
    (∀ j : Fin 2048, s.fb[j] = false) ∧ s.redraw = false ∧ s.beep = false ∧ s.loaded = false ∧
    s.rng = Config.rngInit seed ∧ (∀ a, 0x050 ≤ a → s.mem.read a = 0x00#8) ∧
    ((List.range 80).map fun a => (s.mem.read a).toNat) =
      [0xF0, 0x90, 0x90, 0x90, 0xF0, 0x20, 0x60, 0x20, 0x20, 0x70, 0xF0, 0x10, 0xF0, 0x80, 0xF0, 0xF0, 0x10, 0xF0, 0x10, 0xF0] ++
      [0x90, 0x90, 0xF0, 0x10, 0x10, 0xF0, 0x80, 0xF0, 0x10, 0xF0, 0xF0, 0x80, 0xF0, 0x90, 0xF0, 0xF0, 0x10, 0x20, 0x40, 0x40] ++
      [0xF0, 0x90, 0xF0, 0x90, 0xF0, 0xF0, 0x90, 0xF0, 0x10, 0xF0, 0xF0, 0x90, 0xF0, 0x90, 0x90, 0xE0, 0x90, 0xE0, 0x90, 0xE0] ++
      [0xF0, 0x80, 0x80, 0x80, 0xF0, 0xE0, 0x90, 0x90, 0x90, 0xE0, 0xF0, 0x80, 0xF0, 0x80, 0xF0, 0xF0, 0x80, 0xF0, 0x80, 0x80]

/-- R282, R256: in an unloaded core a ROM of at most 3584 bytes is placed verbatim from 0x200 and nothing else changes but
`loaded`; a longer one raises `RomTooLarge`; in a loaded core `load` has no step (D20). -/
def Obligations.LoadPlacesTheRomVerbatim : Prop :=
  ∀ (s : State) (rom : List Byte),
    (s.loaded = false → rom.length ≤ 3584 → ∃ t, load rom s = .next t ∧ t.loaded = true ∧
      (∀ k, k < rom.length → t.mem.read (0x200 + k) = rom.getD k 0x00#8) ∧
      (∀ a, a < 0x200 ∨ 0x200 + rom.length ≤ a → t.mem.read a = s.mem.read a) ∧
      UnchangedExcept [.mem, .loaded] s t) ∧
    (s.loaded = false → 3584 < rom.length → load rom s = .fault .romTooLarge ∧ afterOp (.load rom) s = s) ∧
    (s.loaded = true → load rom s = .refused .secondLoad)

/-- R267: `set_key(k, pressed)` writes that key and nothing else; a k above 15 has no step (D21). -/
def Obligations.SetKeyWritesOneKey : Prop :=
  ∀ (s : State) (pressed : Bool),
    (∀ k : Fin 16, ∃ t, setKey k.val pressed s = .next t ∧
      (∀ j : Fin 16, t.keys[j] = if j = k then pressed else s.keys[j]) ∧ UnchangedExcept [.keys] s t) ∧
    (∀ k : Nat, 15 < k → setKey k pressed s = .refused (.keyOutsideInterface k))

/-- R264, R269: `consumed_beep()` and `take_redraw()` give the latch and clear it, so that a second call gives false; they
change nothing else. Rests on D16 and D17. -/
def Obligations.LatchesAreReadAndCleared : Prop :=
  ∀ s : State,
    (∃ t, runOp .consumedBeep s = .next (t, .flag s.beep) ∧ t.beep = false ∧ UnchangedExcept [.beep] s t ∧
      runOp .consumedBeep t = .next (t, .flag false)) ∧
    (∃ t, runOp .takeRedraw s = .next (t, .flag s.redraw) ∧ t.redraw = false ∧ UnchangedExcept [.redraw] s t ∧
      runOp .takeRedraw t = .next (t, .flag false))

/-- R128: only a cycle changes `pc`, V, I, `sp`, the stack, the display or the generator; each other operation changes only
the state its own rule names. The spec derives the rule. -/
def Obligations.HostOperationsChangeOnlyTheirOwnState : Prop :=
  ∀ (op : HostOp) (s : State), op ≠ .cycle →
    UnchangedExcept
      (match op with
        | .cycle => []
        | .load _ => [.mem, .loaded]
        | .tickTimers => [.dt, .st, .beep]
        | .setKey _ _ => [.keys]
        | .framebuffer => []
        | .consumedBeep => [.beep]
        | .takeRedraw => [.redraw])
      s (afterOp op s)

/-! The invariant. -/

/-- R33, R140 and the model's canonical memory (assumption 4): the invariant holds after construction with any seed, so at
reset. -/
def Obligations.ConstructionMeetsTheInvariant : Prop := (∀ seed, Inv (State.construct seed)) ∧ Inv State.reset

/-- R33, R140 (as the spec derives them) and the model's canonical memory (assumption 4): from every state that meets the
invariant, a cycle that answers a next state gives one that meets it. -/
def Obligations.EveryStepKeepsTheInvariant : Prop :=
  ∀ s t : State, Inv s → step s = .next t → Inv t

/-- R33, R140, R82 and the model's canonical memory (assumption 4): every operation of the block, with every argument,
keeps the invariant. -/
def Obligations.EveryOperationKeepsTheInvariant : Prop :=
  ∀ (op : HostOp) (s : State), Inv s → Inv (afterOp op s)

/-- R33, R140, R251 (as the spec derives them): in every state that construction and any operations lead to, `pc` is at
most 0x10FE, and every occupied stack entry is even and at most 4096, so that an even `pc` is where RET goes. The
invariant's step lemma is EveryOperationKeepsTheInvariant. -/
def Obligations.ReachablePcAndStackAreBounded : Prop :=
  ∀ s : State, Reachable s → s.pc.toNat ≤ 0x10FE ∧
    (∀ j : Fin 16, j.val < s.sp.val → s.stack[j].toNat % 2 = 0 ∧ s.stack[j].toNat ≤ 4096) ∧
    ∀ t, exec .ret s = .next t → t.pc.toNat % 2 = 0 ∧ t.pc.toNat ≤ 4096
end

