-- ==== Sys2Proof/Laws/Decode.lean ====
section
/-! SUPPORT. The fields of a composed word, the masks of the opcode table as arithmetic on the word, and the bytes
of a word. -/

namespace Sys2Proof

/-! The fields as arithmetic. -/

theorem fieldF_eq (w : Word) : fieldF w = w.toNat / 4096 := by
  have := w.isLt
  simp [fieldF, bits]; omega

theorem toNat_fieldX (w : Word) : (fieldX w).toNat = w.toNat / 256 % 16 := by simp [fieldX, bits]

theorem toNat_fieldY (w : Word) : (fieldY w).toNat = w.toNat / 16 % 16 := by simp [fieldY, bits]

theorem toNat_fieldN (w : Word) : (fieldN w).toNat = w.toNat % 16 := by simp [fieldN, bits]

theorem toNat_fieldNN (w : Word) : (fieldNN w).toNat = w.toNat % 256 := by simp [fieldNN, bits]

theorem toNat_fieldNNN (w : Word) : (fieldNNN w).toNat = w.toNat % 4096 := by simp [fieldNNN, bits]

/-! The words of the formats of R92 as numbers. -/

theorem toNat_wordAddr (f : Nat) (nnn : Addr) (hf : f < 16) : (wordAddr f nnn).toNat = f * 4096 + nnn.toNat := by
  have := nnn.isLt
  simp [wordAddr]; omega

theorem toNat_wordRegByte (f : Nat) (x : Reg) (k : Nat) (hf : f < 16) (hk : k < 256) :
    (wordRegByte f x k).toNat = f * 4096 + x.toNat * 256 + k := by
  have := x.isLt
  simp [wordRegByte]; omega

theorem toNat_wordRegReg (f : Nat) (x y : Reg) (k : Nat) (hf : f < 16) (hk : k < 16) :
    (wordRegReg f x y k).toNat = f * 4096 + x.toNat * 256 + y.toNat * 16 + k := by
  have := x.isLt
  have := y.isLt
  simp [wordRegReg]; omega

/-! The fields of a composed word. -/

theorem fieldF_wordAddr (f : Nat) (nnn : Addr) (hf : f < 16) : fieldF (wordAddr f nnn) = f := by
  have := nnn.isLt
  rw [fieldF_eq, toNat_wordAddr f nnn hf]; omega

theorem fieldNNN_wordAddr (f : Nat) (nnn : Addr) (hf : f < 16) : fieldNNN (wordAddr f nnn) = nnn := by
  have := nnn.isLt
  apply BitVec.eq_of_toNat_eq
  rw [toNat_fieldNNN, toNat_wordAddr f nnn hf]; omega

theorem fieldF_wordRegByte (f : Nat) (x : Reg) (k : Nat) (hf : f < 16) (hk : k < 256) :
    fieldF (wordRegByte f x k) = f := by
  have := x.isLt
  rw [fieldF_eq, toNat_wordRegByte f x k hf hk]; omega

theorem fieldX_wordRegByte (f : Nat) (x : Reg) (k : Nat) (hf : f < 16) (hk : k < 256) :
    fieldX (wordRegByte f x k) = x := by
  have := x.isLt
  apply BitVec.eq_of_toNat_eq
  rw [toNat_fieldX, toNat_wordRegByte f x k hf hk]; omega

theorem fieldNN_wordRegByte (f : Nat) (x : Reg) (k : Nat) (hf : f < 16) (hk : k < 256) :
    fieldNN (wordRegByte f x k) = BitVec.ofNat 8 k := by
  have := x.isLt
  apply BitVec.eq_of_toNat_eq
  rw [toNat_fieldNN, toNat_wordRegByte f x k hf hk, BitVec.toNat_ofNat]; omega

theorem fieldF_wordRegReg (f : Nat) (x y : Reg) (k : Nat) (hf : f < 16) (hk : k < 16) :
    fieldF (wordRegReg f x y k) = f := by
  have := x.isLt
  have := y.isLt
  rw [fieldF_eq, toNat_wordRegReg f x y k hf hk]; omega

theorem fieldX_wordRegReg (f : Nat) (x y : Reg) (k : Nat) (hf : f < 16) (hk : k < 16) :
    fieldX (wordRegReg f x y k) = x := by
  have := x.isLt
  have := y.isLt
  apply BitVec.eq_of_toNat_eq
  rw [toNat_fieldX, toNat_wordRegReg f x y k hf hk]; omega

theorem fieldY_wordRegReg (f : Nat) (x y : Reg) (k : Nat) (hf : f < 16) (hk : k < 16) :
    fieldY (wordRegReg f x y k) = y := by
  have := x.isLt
  have := y.isLt
  apply BitVec.eq_of_toNat_eq
  rw [toNat_fieldY, toNat_wordRegReg f x y k hf hk]; omega

theorem fieldN_wordRegReg (f : Nat) (x y : Reg) (k : Nat) (hf : f < 16) (hk : k < 16) :
    fieldN (wordRegReg f x y k) = BitVec.ofNat 4 k := by
  have := x.isLt
  have := y.isLt
  apply BitVec.eq_of_toNat_eq
  rw [toNat_fieldN, toNat_wordRegReg f x y k hf hk, BitVec.toNat_ofNat]; omega

/-! The masks of the opcode table. -/

theorem toNat_and_F000 (w : Word) : (w &&& 0xF000#16).toNat = w.toNat / 4096 * 4096 := by
  have h : w &&& 0xF000#16 = BitVec.ofNat 16 (w.toNat / 2 ^ 12 * 2 ^ 12) := by
    apply BitVec.eq_of_getLsbD_eq
    intro i hi
    have hw : w.getLsbD i = w.toNat.testBit i := rfl
    simp only [BitVec.getLsbD_and, BitVec.getLsbD_ofNat, Nat.testBit_mul_two_pow, Nat.testBit_div_two_pow, hw]
    interval_cases i <;> simp <;> first | rfl | exact fun _ => rfl
  rw [h]; simp; omega

theorem toNat_and_000F (w : Word) : (w &&& 0x000F#16).toNat = w.toNat % 16 := by
  simpa using Nat.and_two_pow_sub_one_eq_mod w.toNat 4

theorem toNat_and_00FF (w : Word) : (w &&& 0x00FF#16).toNat = w.toNat % 256 := by
  simpa using Nat.and_two_pow_sub_one_eq_mod w.toNat 8

theorem toNat_and_F00F (w : Word) : (w &&& 0xF00F#16).toNat = w.toNat / 4096 * 4096 + w.toNat % 16 := by
  have h : w &&& 0xF00F#16 = (w &&& 0xF000#16) ||| (w &&& 0x000F#16) := by
    rw [← BitVec.and_or_distrib_left]; rfl
  have hs := Nat.two_pow_add_eq_or_of_lt (i := 12) (b := w.toNat % 16) (by omega) (w.toNat / 4096)
  rw [h, BitVec.toNat_or, toNat_and_F000, toNat_and_000F, Nat.mul_comm, ← hs]

theorem toNat_and_F0FF (w : Word) : (w &&& 0xF0FF#16).toNat = w.toNat / 4096 * 4096 + w.toNat % 256 := by
  have h : w &&& 0xF0FF#16 = (w &&& 0xF000#16) ||| (w &&& 0x00FF#16) := by
    rw [← BitVec.and_or_distrib_left]; rfl
  have hs := Nat.two_pow_add_eq_or_of_lt (i := 12) (b := w.toNat % 256) (by omega) (w.toNat / 4096)
  rw [h, BitVec.toNat_or, toNat_and_F000, toNat_and_00FF, Nat.mul_comm, ← hs]

/-- A row with a mask of the family alone. -/
theorem covers_F000 (m : String) (v w : Word) :
    (OpcodeRow.mk m 0xF000#16 v).covers w = decide (w.toNat / 4096 * 4096 = v.toNat) := by
  simp only [OpcodeRow.covers, Bool.beq_eq_decide_eq, ← BitVec.toNat_inj, toNat_and_F000]

/-- A row with a mask of the family and the low nibble. -/
theorem covers_F00F (m : String) (v w : Word) :
    (OpcodeRow.mk m 0xF00F#16 v).covers w = decide (w.toNat / 4096 * 4096 + w.toNat % 16 = v.toNat) := by
  simp only [OpcodeRow.covers, Bool.beq_eq_decide_eq, ← BitVec.toNat_inj, toNat_and_F00F]

/-- A row with a mask of the family and the low byte. -/
theorem covers_F0FF (m : String) (v w : Word) :
    (OpcodeRow.mk m 0xF0FF#16 v).covers w = decide (w.toNat / 4096 * 4096 + w.toNat % 256 = v.toNat) := by
  simp only [OpcodeRow.covers, Bool.beq_eq_decide_eq, ← BitVec.toNat_inj, toNat_and_F0FF]

/-- A row that is one word. -/
theorem covers_FFFF (m : String) (v w : Word) :
    (OpcodeRow.mk m 0xFFFF#16 v).covers w = decide (w.toNat = v.toNat) := by
  have : w &&& 0xFFFF#16 = w := BitVec.and_allOnes
  simp only [OpcodeRow.covers, Bool.beq_eq_decide_eq, ← BitVec.toNat_inj, this]

/-! The bytes of a word (R72). -/

@[simp] theorem wordOfBytes_high_low (w : Word) : wordOfBytes (highByte w) (lowByte w) = w := by
  have := w.isLt
  apply BitVec.eq_of_toNat_eq
  simp [wordOfBytes, highByte, lowByte]; omega

@[simp] theorem highByte_wordOfBytes (hi lo : Byte) : highByte (wordOfBytes hi lo) = hi := by
  have := hi.isLt
  have := lo.isLt
  apply BitVec.eq_of_toNat_eq
  simp [wordOfBytes, highByte]; omega

@[simp] theorem lowByte_wordOfBytes (hi lo : Byte) : lowByte (wordOfBytes hi lo) = lo := by
  have := hi.isLt
  have := lo.isLt
  apply BitVec.eq_of_toNat_eq
  simp [wordOfBytes, lowByte]; omega

/-- The decoder on bytes is the decoder on their big-endian word (R72). -/
theorem decodeBytes_of_word (w : Word) (rest : List Byte) (i : Instr) (h : decodeWord w = .ok i) :
    decodeBytes (highByte w :: lowByte w :: rest) = .ok (i, rest) := by
  simp [decodeBytes, h]

end Sys2Proof
end

