-- ==== Sys2Proof/Laws/Draw.lean ====
section
/-! SUPPORT. What the blit engine does: flipping a list of distinct cells flips exactly those, and the flag says
whether one of them was 1. -/

namespace Sys2Proof.Machine

open Sys2Proof

/-- A cell that is not in the list keeps its value. -/
theorem flipCells_of_not_mem (fb : Display) (cells : List (Fin 2048)) (j : Fin 2048) (h : j ∉ cells) :
    (flipCells fb cells).1[j] = fb[j] := by
  induction cells generalizing fb with
  | nil => rfl
  | cons c rest ih =>
    simp only [List.mem_cons, not_or] at h
    have hne : c.val ≠ j.val := fun e => h.1 (Fin.ext e.symm)
    rw [flipCells, ih _ h.2]
    simp [hne]

/-- A cell that is in a list of distinct cells is flipped. -/
theorem flipCells_of_mem (fb : Display) (cells : List (Fin 2048)) (j : Fin 2048) (hd : cells.Nodup) (h : j ∈ cells) :
    (flipCells fb cells).1[j] = !fb[j] := by
  induction cells generalizing fb with
  | nil => simp at h
  | cons c rest ih =>
    obtain ⟨hc, hrest⟩ := List.nodup_cons.mp hd
    by_cases hj : j = c
    · subst hj
      rw [flipCells, flipCells_of_not_mem _ _ _ hc]
      simp
    · have hne : c.val ≠ j.val := fun e => hj (Fin.ext e.symm)
      have hmem : j ∈ rest := by simpa [hj] using h
      rw [flipCells, ih _ hrest hmem]
      simp [hne]

/-- `collided`: some cell of a list of distinct cells was 1 before. -/
theorem flipCells_collided (fb : Display) (cells : List (Fin 2048)) (hd : cells.Nodup) :
    (flipCells fb cells).2 = true ↔ ∃ j ∈ cells, fb[j] = true := by
  induction cells generalizing fb with
  | nil => simp [flipCells]
  | cons c rest ih =>
    obtain ⟨hc, hrest⟩ := List.nodup_cons.mp hd
    have key : ∀ j ∈ rest, (fb.set c.val (!fb[c]) c.isLt)[j] = fb[j] := by
      intro j hj
      have hne : c.val ≠ j.val := fun e => hc (Fin.ext e ▸ hj)
      simp [hne]
    rw [flipCells, Bool.or_eq_true, ih _ hrest]
    constructor
    · rintro (h | ⟨j, hj, hjt⟩)
      · exact ⟨c, by simp, h⟩
      · exact ⟨j, by simp [hj], by rw [← key j hj]; exact hjt⟩
    · rintro ⟨j, hj, hjt⟩
      rcases List.mem_cons.mp hj with rfl | hj
      · exact Or.inl hjt
      · exact Or.inr ⟨j, hj, by rw [key j hj]; exact hjt⟩

/-- The column and the row of a cell index. -/
theorem cellIndex_inj {c r c' r' : Nat} (h : cellIndex c r = cellIndex c' r') :
    c % 64 = c' % 64 ∧ r % 32 = r' % 32 := by
  have := congrArg Fin.val h
  simp only [cellIndex] at this
  omega

theorem rowCells_nodup (cx cy : Nat) (row : Byte) : (rowCells cx cy row).Nodup := by
  unfold rowCells
  refine List.Nodup.map_on ?_ (List.Nodup.filter _ List.nodup_range)
  intro a ha b hb h
  have h1 := (cellIndex_inj h).1
  have ha' : a < 8 := by simpa using (List.mem_filter.mp ha).1
  have hb' : b < 8 := by simpa using (List.mem_filter.mp hb).1
  omega

/-- A cell of row `cy` of a sprite lies on the display row `cy mod 32`. -/
theorem row_of_mem_rowCells {cx cy : Nat} {row : Byte} {j : Fin 2048} (h : j ∈ rowCells cx cy row) :
    j.val / 64 = cy % 32 := by
  obtain ⟨c, -, rfl⟩ := List.mem_map.mp h
  simp only [cellIndex]; omega

theorem row_of_mem_spriteCells {cx cy : Nat} {rows : List Byte} {j : Fin 2048} (h : j ∈ spriteCells cx cy rows) :
    ∃ r, r < rows.length ∧ j.val / 64 = (cy + r) % 32 := by
  induction rows generalizing cy with
  | nil => simp [spriteCells] at h
  | cons row rest ih =>
    rcases List.mem_append.mp h with h | h
    · exact ⟨0, by simp, by simpa using row_of_mem_rowCells h⟩
    · obtain ⟨r, hr, hj⟩ := ih h
      exact ⟨r + 1, by simpa using hr, by rw [hj]; congr 1; omega⟩

/-- R211: within one draw of at most 32 rows no cell is flipped twice. -/
theorem spriteCells_nodup (cx cy : Nat) (rows : List Byte) (h : rows.length ≤ 32) : (spriteCells cx cy rows).Nodup := by
  induction rows generalizing cy with
  | nil => simp [spriteCells]
  | cons row rest ih =>
    simp only [List.length_cons] at h
    rw [spriteCells, List.nodup_append]
    refine ⟨rowCells_nodup cx cy row, ih (cy + 1) (by omega), fun a ha b hb hab => ?_⟩
    subst hab
    have h1 := row_of_mem_rowCells ha
    obtain ⟨r, hr, h2⟩ := row_of_mem_spriteCells hb
    omega

/-- The cells of a sprite: bit 7 - b of row k lights column `cx + b` of row `cy + k`, wrapped (R211). -/
theorem mem_spriteCells (cx cy : Nat) (rows : List Byte) (j : Fin 2048) :
    j ∈ spriteCells cx cy rows ↔ ∃ k, k < rows.length ∧ ∃ b, b < 8 ∧ (rows.getD k 0x00#8).getLsbD (7 - b) = true ∧
      j.val = (cx + b) % 64 + 64 * ((cy + k) % 32) := by
  induction rows generalizing cy with
  | nil => simp [spriteCells]
  | cons row rest ih =>
    rw [spriteCells, List.mem_append, ih]
    simp only [rowCells, List.mem_map, List.mem_filter, List.mem_range]
    constructor
    · rintro (⟨c, ⟨hc, hbit⟩, rfl⟩ | ⟨k, hk, b, hb, hbit, hj⟩)
      · exact ⟨0, by simp, c, hc, by simpa using hbit, by simp [cellIndex]⟩
      · exact ⟨k + 1, by simpa using hk, b, hb, by simpa using hbit, by rw [hj]; congr 3; omega⟩
    · rintro ⟨k, hk, b, hb, hbit, hj⟩
      cases k with
      | zero => exact Or.inl ⟨b, ⟨hb, by simpa using hbit⟩, Fin.ext (by simpa [cellIndex] using hj.symm)⟩
      | succ k => exact Or.inr ⟨k, by simpa using hk, b, hb, by simpa using hbit, by rw [hj]; congr 3; omega⟩

end Sys2Proof.Machine
end

