-- ==== Sys2Proof/Laws/Ops.lean ====
section
/-! SUPPORT. What each shared operation does, once: registers, the stack, the memory primitives, the range check,
the end of an instruction. -/

namespace Sys2Proof.Machine

open Sys2Proof

@[simp] theorem finish_ok (t : State) : finish (.ok t) = .next t := rfl

@[simp] theorem finish_error (f : Fault) : finish (.error f) = .fault f := rfl

/-- An instruction that ends through `finish` never refuses. -/
theorem finish_ne_refused (r : Except Fault State) (q : Refusal) : finish r ≠ .refused q := by
  cases r <;> simp

/-! Registers. -/

/-- A register after a write: the byte written, and every other register as before. -/
theorem State.reg_setReg (s : State) (x r : Reg) (b : Byte) :
    (s.setReg x b).reg r = if r = x then b else s.reg r := by
  unfold State.reg State.setReg
  by_cases h : r = x
  · subst h; simp
  · have : x.toNat ≠ r.toNat := fun e => h (BitVec.eq_of_toNat_eq e.symm)
    simp [h, this]

@[simp] theorem State.reg_setReg_self (s : State) (x : Reg) (b : Byte) : (s.setReg x b).reg x = b := by
  simp [State.reg_setReg]

/-- The result and the flag (R173): VF holds the flag, then V[x] the result, the rest as before. -/
theorem State.reg_setRegFlag (s : State) (x r : Reg) (b f : Byte) :
    (s.setRegFlag x b f).reg r = if r = VF then f else if r = x then b else s.reg r := by
  simp [State.setRegFlag, State.reg_setReg]

/-- A block of registers: V[k] takes the k-th byte, the registers past the block stay. -/
theorem State.reg_setRegs (s : State) (bytes : List Byte) (r : Reg) :
    (s.setRegs bytes).reg r = bytes.getD r.toNat (s.reg r) := by
  simp [State.setRegs, State.reg]

/-! The updates that leave every register as it is. -/

@[simp] theorem State.reg_jump (s : State) (w : Word) (r : Reg) : (s.jump w).reg r = s.reg r := rfl

@[simp] theorem State.reg_advance (s : State) (r : Reg) : s.advance.reg r = s.reg r := rfl

@[simp] theorem State.reg_skipIf (s : State) (c : Bool) (r : Reg) : (s.skipIf c).reg r = s.reg r := by cases c <;> rfl

@[simp] theorem State.reg_setI (s : State) (w : Word) (r : Reg) : (s.setI w).reg r = s.reg r := rfl

@[simp] theorem State.reg_setDt (s : State) (b : Byte) (r : Reg) : (s.setDt b).reg r = s.reg r := rfl

@[simp] theorem State.reg_setSt (s : State) (b : Byte) (r : Reg) : (s.setSt b).reg r = s.reg r := rfl

@[simp] theorem State.reg_setRng (s : State) (g : RngState) (r : Reg) : (s.setRng g).reg r = s.reg r := rfl

@[simp] theorem State.reg_setMem (s : State) (m : Memory) (r : Reg) : (s.setMem m).reg r = s.reg r := rfl

@[simp] theorem State.reg_setDisplay (s : State) (d : Display) (r : Reg) : (s.setDisplay d).reg r = s.reg r := rfl

/-- A register reads the same in states with the same `v`. -/
theorem State.reg_congr {s t : State} (h : t.v = s.v) (r : Reg) : t.reg r = s.reg r := by
  simp [State.reg, h]

/-- Two register files that read alike are the same. -/
theorem State.v_eq_of_reg {s t : State} (h : ∀ r, t.reg r = s.reg r) : t.v = s.v := by
  apply Vector.ext
  intro k hk
  have := h (BitVec.ofNat 4 k)
  simpa [State.reg, Nat.mod_eq_of_lt hk] using this

theorem State.length_regsUpTo (s : State) (x : Reg) : (s.regsUpTo x).length = x.toNat + 1 := by
  have := x.isLt
  simp [State.regsUpTo]; omega

theorem State.getD_regsUpTo (s : State) (x : Reg) (k : Nat) (d : Byte) (h : k ≤ x.toNat) :
    (s.regsUpTo x).getD k d = s.reg (BitVec.ofNat 4 k) := by
  have := x.isLt
  have hk : k < 16 := by omega
  simp [State.regsUpTo, State.reg, List.getD_eq_getElem?_getD, Nat.lt_succ_of_le h, hk,
    Nat.mod_eq_of_lt hk]

/-! The stack. -/

/-- A push with room: the entry at `sp` and `sp` plus one, nothing else. -/
theorem State.push_ok (s : State) (ret : Word) (h : s.sp.val < 16) :
    s.push ret = .ok { s with stack := s.stack.set s.sp.val ret h, sp := ⟨s.sp.val + 1, by omega⟩ } := by
  simp [State.push, h]

/-- A push on a full stack. -/
theorem State.push_full (s : State) (ret : Word) (h : s.sp.val = 16) : s.push ret = .error .stackOverflow := by
  simp [State.push, h]

/-- A pop of an occupied stack: the top entry and `sp` minus one, nothing else. -/
theorem State.pop_ok (s : State) (h : s.sp.val ≠ 0) :
    s.pop = .ok (s.stack[s.sp.val - 1]'(by omega), { s with sp := ⟨s.sp.val - 1, by omega⟩ }) := by
  simp [State.pop, h]

/-- A pop of an empty stack. -/
theorem State.pop_empty (s : State) (h : s.sp.val = 0) : s.pop = .error .stackUnderflow := by
  simp [State.pop, h]

/-! The memory primitives of R74 and the range check of R75. -/

/-- A block read inside memory gives the bytes there. -/
theorem State.memReadBlock_ok (s : State) (a n : Nat) (h : n = 0 ∨ a + n ≤ 0x1000) :
    s.memReadBlock a n = .ok (s.mem.readBytes a n) := by
  induction n generalizing a with
  | zero => rfl
  | succ n ih =>
    have ha : ¬(a > 0xFFF) := by omega
    have hrest := ih (a + 1) (by omega)
    simp [State.memReadBlock, State.memRead, ha, hrest, bind, Except.bind, Memory.readBytes]

/-- A block write inside memory changes the memory alone. -/
theorem State.memWriteBlock_ok (s : State) (a : Nat) (bytes : List Byte)
    (h : bytes = [] ∨ a + bytes.length ≤ 0x1000) :
    s.memWriteBlock a bytes = .ok (s.setMem (s.mem.writeBytes a bytes)) := by
  induction bytes generalizing s a with
  | nil => rfl
  | cons b rest ih =>
    have hlen : a + (rest.length + 1) ≤ 0x1000 := by simpa using h
    have ha : ¬(a > 0xFFF) := by omega
    have hrest := ih (s.setMem (s.mem.write a b)) (a + 1) (by right; omega)
    simp only [State.memWriteBlock, State.memWrite, ha, if_false, bind, Except.bind, hrest]
    rfl

/-- The range check passes exactly when the last address is at most 0xFFF, or there is none. -/
theorem State.checkRange_ok (s : State) (n : Nat) (h : n = 0 ∨ s.i.toNat + n ≤ 0x1000) :
    s.checkRange n = .ok () := by
  unfold State.checkRange
  rw [if_neg (by omega)]

/-- The range check fails with the lowest failing address. -/
theorem State.checkRange_error (s : State) (n : Nat) (hn : 0 < n) (h : 0x1000 < s.i.toNat + n) :
    s.checkRange n = .error (.memoryOutOfRange (max s.i.toNat 0x1000)) := by
  unfold State.checkRange
  rw [if_pos (by omega)]

end Sys2Proof.Machine
end

