-- ==== Sys2Proof/Laws/Operands.lean ====
section
/-! SUPPORT. What the operand forms and the flag computations give, as numbers. -/

namespace Sys2Proof.Machine

open Sys2Proof

@[simp] theorem toNat_zext16 (nnn : Addr) : (zext16 nnn).toNat = nnn.toNat := by
  have := nnn.isLt
  simp [zext16]; omega

@[simp] theorem toNat_keyNumber (b : Byte) : (keyNumber b).toNat = b.toNat % 16 := by
  simp [keyNumber]

@[simp] theorem toNat_glyphAddress (b : Byte) : (glyphAddress b).toNat = 5 * (b.toNat % 16) := by
  simp [glyphAddress, Config.GLYPH_BASE, Config.GLYPH_BYTES]; omega

@[simp] theorem length_bcdDigits (b : Byte) : (bcdDigits b).length = 3 := rfl

/-- The three digits of R193 as numbers. -/
theorem toNat_bcdDigits (b : Byte) :
    (bcdDigits b).map BitVec.toNat = [b.toNat / 100, b.toNat / 10 % 10, b.toNat % 10] := by
  have := b.isLt
  simp [bcdDigits]; omega

/-- No key is latched exactly when no key is down. -/
theorem State.lowestKey_eq_none (s : State) : s.lowestKey = none ↔ ∀ k, s.keyDown k = false := by
  simp only [State.lowestKey, List.find?_eq_none, List.mem_finRange, true_implies, State.keyDown]
  constructor
  · intro h k
    simpa using h ⟨k.toNat, k.isLt⟩
  · intro h k
    have := h (BitVec.ofNat 4 k.val)
    have hk := k.isLt
    simpa [Nat.mod_eq_of_lt hk] using this

/-- The key that is latched is down, and every lower-numbered key is up. -/
theorem State.lowestKey_eq_some (s : State) (k : Fin 16) :
    s.lowestKey = some k ↔ s.keys[k] = true ∧ ∀ j : Fin 16, j < k → s.keys[j] = false := by
  unfold State.lowestKey
  rw [List.find?_eq_some_iff_getElem]
  constructor
  · rintro ⟨hk, i, hi, rfl, hj⟩
    refine ⟨hk, fun j hlt => ?_⟩
    have h := hj j.val (by simpa [Fin.lt_def] using hlt)
    simpa using h
  · rintro ⟨hk, hj⟩
    refine ⟨hk, k.val, by simp, by simp, fun j hlt => ?_⟩
    have h := hj ⟨j, by omega⟩ (by simpa [Fin.lt_def] using hlt)
    simpa using h

/-! Flags. -/

@[simp] theorem flagByte_true : flagByte true = 0x01#8 := rfl

@[simp] theorem flagByte_false : flagByte false = 0x00#8 := rfl

theorem toNat_flagByte (c : Bool) : (flagByte c).toNat = if c then 1 else 0 := by cases c <;> rfl

theorem toNat_carry (a b : Byte) : (carry a b).toNat = if a.toNat + b.toNat > 255 then 1 else 0 := by
  simp [carry, toNat_flagByte]

theorem toNat_notBorrow (a b : Byte) : (notBorrow a b).toNat = if a.toNat ≥ b.toNat then 1 else 0 := by
  simp [notBorrow, toNat_flagByte]

theorem toNat_shiftedOutRight (a : Byte) : (shiftedOutRight a).toNat = a.toNat % 2 := by
  simp [shiftedOutRight]; omega

theorem toNat_shiftedOutLeft (a : Byte) : (shiftedOutLeft a).toNat = a.toNat / 128 := by
  have := a.isLt
  simp [shiftedOutLeft]; omega

/-- A byte that is 0 or 1 as a number is 0 or 1 (R32). -/
theorem byte_zero_or_one {b : Byte} (h : b.toNat < 2) : b = 0x00#8 ∨ b = 0x01#8 := by
  rcases Nat.lt_or_ge b.toNat 1 with h0 | h1
  · left; apply BitVec.eq_of_toNat_eq; simp; omega
  · right; apply BitVec.eq_of_toNat_eq; simp; omega

end Sys2Proof.Machine
end

