-- ==== Sys2Proof/Laws/Exec.lean ====
section
/-! SUPPORT. The instructions that can raise a fault, each as one choice between its next state and its fault. -/

namespace Sys2Proof.Machine

open Sys2Proof

/-- RET: pop or `StackUnderflow`. -/
theorem execRet_eq (s : State) :
    execRet s =
      if _h : s.sp.val = 0 then .fault .stackUnderflow
      else .next { s with sp := ⟨s.sp.val - 1, by omega⟩, pc := s.stack[s.sp.val - 1]'(by omega) } := by
  unfold execRet
  split
  · rename_i h; rw [State.pop_empty s h]; rfl
  · rename_i h; rw [State.pop_ok s h]; rfl

/-- CALL: push and go, or `StackOverflow`. -/
theorem execCall_eq (nnn : Addr) (s : State) :
    execCall nnn s =
      if h : s.sp.val < 16 then
        .next { s with stack := s.stack.set s.sp.val (s.pc + 2#16) h, sp := ⟨s.sp.val + 1, by omega⟩, pc := zext16 nnn }
      else .fault .stackOverflow := by
  unfold execCall
  split
  · rename_i h; rw [State.push_ok s _ h]; rfl
  · rename_i h; rw [State.push_full s _ (by omega)]; rfl

/-- FX33: three digits stored, or the range fault. -/
theorem execLdBVx_eq (x : Reg) (s : State) :
    execLdBVx x s =
      if s.i.toNat + 3 ≤ 0x1000 then .next (s.setMem (s.mem.writeBytes s.i.toNat (bcdDigits (s.reg x)))).advance
      else .fault (.memoryOutOfRange (max s.i.toNat 0x1000)) := by
  unfold execLdBVx
  split
  · rename_i h
    rw [State.checkRange_ok s 3 (by omega)]
    simp only [State.indexAddr, Nat.add_zero, bind, Except.bind]
    rw [State.memWriteBlock_ok _ _ _ (by right; simpa using h)]
    rfl
  · rename_i h; rw [State.checkRange_error s 3 (by omega) (by omega)]; rfl

/-- FX55: V[0] to V[x] stored, or the range fault. -/
theorem execLdMemVx_eq (x : Reg) (s : State) :
    execLdMemVx x s =
      if s.i.toNat + (x.toNat + 1) ≤ 0x1000 then
        .next (s.setMem (s.mem.writeBytes s.i.toNat (s.regsUpTo x))).advance
      else .fault (.memoryOutOfRange (max s.i.toNat 0x1000)) := by
  unfold execLdMemVx
  split
  · rename_i h
    rw [State.checkRange_ok s _ (by omega)]
    simp only [State.indexAddr, Nat.add_zero, bind, Except.bind]
    rw [State.memWriteBlock_ok _ _ _ (by right; rw [State.length_regsUpTo]; exact h)]
    rfl
  · rename_i h; rw [State.checkRange_error s _ (by omega) (by omega)]; rfl

/-- FX65: V[0] to V[x] loaded, or the range fault. -/
theorem execLdVxMem_eq (x : Reg) (s : State) :
    execLdVxMem x s =
      if s.i.toNat + (x.toNat + 1) ≤ 0x1000 then
        .next (s.setRegs (s.mem.readBytes s.i.toNat (x.toNat + 1))).advance
      else .fault (.memoryOutOfRange (max s.i.toNat 0x1000)) := by
  unfold execLdVxMem
  split
  · rename_i h
    rw [State.checkRange_ok s _ (by omega)]
    simp only [State.indexAddr, Nat.add_zero, bind, Except.bind]
    rw [State.memReadBlock_ok _ _ _ (by omega)]
    rfl
  · rename_i h; rw [State.checkRange_error s _ (by omega) (by omega)]; rfl

/-- DXYN: the sprite drawn, or the range fault. -/
theorem execDrw_eq (x y : Reg) (n : Nibble) (s : State) :
    execDrw x y n s =
      if n.toNat = 0 ∨ s.i.toNat + n.toNat ≤ 0x1000 then
        .next ((s.setDisplay (draw s.fb (s.reg x).toNat (s.reg y).toNat (s.mem.readBytes s.i.toNat n.toNat)).1).setReg VF
          (flagByte (draw s.fb (s.reg x).toNat (s.reg y).toNat (s.mem.readBytes s.i.toNat n.toNat)).2)).advance
      else .fault (.memoryOutOfRange (max s.i.toNat 0x1000)) := by
  unfold execDrw
  split
  · rename_i h
    rw [State.checkRange_ok s _ h]
    simp only [State.indexAddr, Nat.add_zero, bind, Except.bind]
    rw [State.memReadBlock_ok _ _ _ h]
    rfl
  · rename_i h; rw [State.checkRange_error s _ (by omega) (by omega)]; rfl

end Sys2Proof.Machine
end

