-- ==== Sys2Proof/Laws/Fetch.lean ====
section
/-! SUPPORT. What a cycle is in each of its cases (R120, R258), and that placing a word makes it the next instruction. -/

namespace Sys2Proof.Machine

open Sys2Proof

theorem pcLegal_iff (pc : Word) : pcLegal pc = true ↔ pc.toNat < 4096 ∧ pc.toNat % 2 = 0 := by
  simp [pcLegal]

theorem step_unloaded (s : State) (h : s.loaded = false) : step s = .next s := by
  simp [step, State.fetchNext, h]

theorem step_illegal_pc (s : State) (h : s.loaded = true) (hp : pcLegal s.pc = false) :
    step s = .fault (.invalidProgramCounter s.pc) := by
  simp [step, State.fetchNext, h, hp, raise]

theorem step_illegal_word (s : State) (e : DecodeReject) (h : s.loaded = true) (hp : pcLegal s.pc = true)
    (hd : decodeWord s.fetchWord = .error e) : step s = .fault (.unimplementedOpcode s.fetchWord) := by
  simp [step, State.fetchNext, h, hp, hd, raise]

theorem step_runs (s : State) (i : Instr) (h : s.loaded = true) (hp : pcLegal s.pc = true)
    (hd : decodeWord s.fetchWord = .ok i) : step s = exec i s := by
  simp [step, State.fetchNext, h, hp, hd]

/-- The cases of a cycle: the no-op of an unloaded core, the two faults before execution, or one instruction. -/
theorem step_cases (s : State) :
    (s.loaded = false ∧ step s = .next s) ∨
    (s.loaded = true ∧ pcLegal s.pc = false ∧ step s = .fault (.invalidProgramCounter s.pc)) ∨
    (s.loaded = true ∧ pcLegal s.pc = true ∧ (∃ e, decodeWord s.fetchWord = .error e) ∧
      step s = .fault (.unimplementedOpcode s.fetchWord)) ∨
    (s.loaded = true ∧ pcLegal s.pc = true ∧ ∃ i, decodeWord s.fetchWord = .ok i ∧ step s = exec i s) := by
  cases hl : s.loaded with
  | false => exact .inl ⟨rfl, step_unloaded s hl⟩
  | true =>
    cases hp : pcLegal s.pc with
    | false => exact .inr (.inl ⟨rfl, rfl, step_illegal_pc s hl hp⟩)
    | true =>
      cases hd : decodeWord s.fetchWord with
      | error e => exact .inr (.inr (.inl ⟨rfl, rfl, ⟨e, rfl⟩, step_illegal_word s e hl hp hd⟩))
      | ok i => exact .inr (.inr (.inr ⟨rfl, rfl, i, rfl, step_runs s i hl hp hd⟩))

/-- A word placed at a legal `pc` is the word fetched there. -/
theorem State.fetchWord_placeNext (s : State) (w : Word) (hp : pcLegal s.pc = true) :
    (s.placeNext w).fetchWord = w := by
  have h : s.placeNext w = { s with mem := s.mem.writeBytes s.pc.toNat [highByte w, lowByte w], loaded := true } := by
    simp [State.placeNext, hp]
  have h0 := Memory.read_writeBytes s.mem s.pc.toNat s.pc.toNat [highByte w, lowByte w]
  have h1 := Memory.read_writeBytes s.mem s.pc.toNat (s.pc.toNat + 1) [highByte w, lowByte w]
  simp at h0 h1
  simp [h, State.fetchWord, h0, h1]

/-- The step after `withFetchWord` runs the instruction placed. -/
theorem step_withFetchWord (s : State) (nbits w : Nat) (i : Instr) (hp : pcLegal s.pc = true)
    (hd : decodeWord (tableWord nbits w) = .ok i) : step (s.withFetchWord nbits w) = exec i (s.withFetchWord nbits w) := by
  have h : s.withFetchWord nbits w = s.placeNext (tableWord nbits w) := rfl
  have hl : (s.placeNext (tableWord nbits w)).loaded = true := by simp [State.placeNext, hp]
  have hpc : pcLegal (s.placeNext (tableWord nbits w)).pc = true := by simp [State.placeNext, hp]
  rw [h]
  exact step_runs _ i hl hpc (by rw [State.fetchWord_placeNext s _ hp]; exact hd)

end Sys2Proof.Machine
end

