-- ==== Sys2Proof/Laws/Interface.lean ====
section
/-! SUPPORT. What each host operation leaves of the state, once. -/

namespace Sys2Proof.Machine

open Sys2Proof

/-- `load` by its three cases: placed, too large, outside the interface. -/
theorem load_eq (rom : List Byte) (s : State) :
    load rom s =
      if s.loaded = true then .refused .secondLoad
      else if rom.length ≤ 3584 then .next { s with mem := s.mem.writeBytes 0x200 rom, loaded := true }
      else .fault .romTooLarge := by
  simp only [load, romFits, decide_eq_true_eq, raise]

/-- A cycle that completes leaves its next state; one that faults leaves the state as it was (R126). -/
theorem afterOp_cycle (s : State) :
    (∃ t, step s = .next t ∧ afterOp .cycle s = t) ∨ ((∀ t, step s ≠ .next t) ∧ afterOp .cycle s = s) := by
  simp only [afterOp, runOp]
  cases h : step s with
  | next t => exact .inl ⟨t, rfl, rfl⟩
  | fault f => exact .inr ⟨by simp, rfl⟩
  | refused q => exact .inr ⟨by simp, rfl⟩

theorem afterOp_load (rom : List Byte) (s : State) :
    afterOp (.load rom) s =
      if s.loaded = false ∧ rom.length ≤ 3584 then { s with mem := s.mem.writeBytes 0x200 rom, loaded := true } else s := by
  simp only [afterOp, runOp, load_eq]
  by_cases h : s.loaded <;> by_cases h' : rom.length ≤ 3584 <;> simp [h, h', replying]

theorem afterOp_setKey (k : Nat) (pressed : Bool) (s : State) :
    afterOp (.setKey k pressed) s = if h : k < 16 then { s with keys := s.keys.set k pressed h } else s := by
  simp only [afterOp, runOp, setKey]
  by_cases h : k < 16 <;> simp [h, replying]

@[simp] theorem afterOp_tickTimers (s : State) : afterOp .tickTimers s = tickTimers s := rfl

@[simp] theorem afterOp_framebuffer (s : State) : afterOp .framebuffer s = s := rfl

@[simp] theorem afterOp_consumedBeep (s : State) : afterOp .consumedBeep s = { s with beep := false } := rfl

@[simp] theorem afterOp_takeRedraw (s : State) : afterOp .takeRedraw s = { s with redraw := false } := rfl

/-- One tick: each timer down by one, stopping at 0 (R263). -/
theorem toNat_tickTimers (s : State) :
    (tickTimers s).dt.toNat = s.dt.toNat - 1 ∧ (tickTimers s).st.toNat = s.st.toNat - 1 := by
  have h1 := s.dt.isLt
  have h2 := s.st.isLt
  constructor <;> simp only [tickTimers] <;> split <;> first | omega | (simp; omega)

end Sys2Proof.Machine
end

