-- ==== Sys2Proof/Laws/PerInstr.lean ====
section
/-! SUPPORT. The family EncodingInTable: a statement about each instruction as syntax, one lemma for each constructor. -/

namespace Sys2Proof.Laws.EncodingInTable

open Sys2Proof

/-- Of all the rows of spec/opcode_table.json, the one that covers the instruction's word is the row of its own mnemonic. -/
def Statement (i : Instr) : Prop := ∀ r ∈ opcodeTable, r.covers (encode i) = true ↔ r.mnemonic = i.mnemonic

/-- The statement, row by row, as arithmetic on the instruction's word. -/
theorem statement_iff (i : Instr) (k : Nat) (hk : (encode i).toNat = k) :
    Statement i ↔ ∀ r ∈ opcodeTable, decide (if r.mask = 0xF000#16 then k / 4096 * 4096 = r.value.toNat
      else if r.mask = 0xF00F#16 then k / 4096 * 4096 + k % 16 = r.value.toNat
      else if r.mask = 0xF0FF#16 then k / 4096 * 4096 + k % 256 = r.value.toNat
      else k = r.value.toNat) = decide (r.mnemonic = i.mnemonic) := by
  subst hk
  simp only [Statement, opcodeTable, opcodeRows0to7, opcodeRows8toD, opcodeRowsEtoF, List.forall_mem_append,
    List.forall_mem_cons, covers_F000, covers_F00F, covers_F0FF, covers_FFFF, decide_eq_true_eq, decide_eq_decide]
  simp

theorem cls : Statement (.cls) := by
  rw [statement_iff (.cls) (224) (rfl)]
  simp [opcodeTable, opcodeRows0to7, opcodeRows8toD, opcodeRowsEtoF, Instr.mnemonic]

theorem ret : Statement (.ret) := by
  rw [statement_iff (.ret) (238) (rfl)]
  simp [opcodeTable, opcodeRows0to7, opcodeRows8toD, opcodeRowsEtoF, Instr.mnemonic]

theorem jp (nnn : Addr) : Statement (.jp nnn) := by
  have := nnn.isLt
  rw [statement_iff (.jp nnn) (1 * 4096 + nnn.toNat) (toNat_wordAddr 1 nnn (by decide))]
  simp [opcodeTable, opcodeRows0to7, opcodeRows8toD, opcodeRowsEtoF, Instr.mnemonic]; omega

theorem call (nnn : Addr) : Statement (.call nnn) := by
  have := nnn.isLt
  rw [statement_iff (.call nnn) (2 * 4096 + nnn.toNat) (toNat_wordAddr 2 nnn (by decide))]
  simp [opcodeTable, opcodeRows0to7, opcodeRows8toD, opcodeRowsEtoF, Instr.mnemonic]; omega

theorem seImm (x : Reg) (nn : Byte) : Statement (.seImm x nn) := by
  have := x.isLt
  have := nn.isLt
  rw [statement_iff (.seImm x nn) (3 * 4096 + x.toNat * 256 + nn.toNat) (toNat_wordRegByte 3 x nn.toNat (by decide) nn.isLt)]
  simp [opcodeTable, opcodeRows0to7, opcodeRows8toD, opcodeRowsEtoF, Instr.mnemonic]; omega

theorem sneImm (x : Reg) (nn : Byte) : Statement (.sneImm x nn) := by
  have := x.isLt
  have := nn.isLt
  rw [statement_iff (.sneImm x nn) (4 * 4096 + x.toNat * 256 + nn.toNat) (toNat_wordRegByte 4 x nn.toNat (by decide) nn.isLt)]
  simp [opcodeTable, opcodeRows0to7, opcodeRows8toD, opcodeRowsEtoF, Instr.mnemonic]; omega

theorem seReg (x : Reg) (y : Reg) : Statement (.seReg x y) := by
  have := x.isLt
  have := y.isLt
  rw [statement_iff (.seReg x y) (5 * 4096 + x.toNat * 256 + y.toNat * 16 + 0) (toNat_wordRegReg 5 x y 0 (by decide) (by decide))]
  simp [opcodeTable, opcodeRows0to7, opcodeRows8toD, opcodeRowsEtoF, Instr.mnemonic]; omega

theorem ldImm (x : Reg) (nn : Byte) : Statement (.ldImm x nn) := by
  have := x.isLt
  have := nn.isLt
  rw [statement_iff (.ldImm x nn) (6 * 4096 + x.toNat * 256 + nn.toNat) (toNat_wordRegByte 6 x nn.toNat (by decide) nn.isLt)]
  simp [opcodeTable, opcodeRows0to7, opcodeRows8toD, opcodeRowsEtoF, Instr.mnemonic]; omega

theorem addImm (x : Reg) (nn : Byte) : Statement (.addImm x nn) := by
  have := x.isLt
  have := nn.isLt
  rw [statement_iff (.addImm x nn) (7 * 4096 + x.toNat * 256 + nn.toNat) (toNat_wordRegByte 7 x nn.toNat (by decide) nn.isLt)]
  simp [opcodeTable, opcodeRows0to7, opcodeRows8toD, opcodeRowsEtoF, Instr.mnemonic]; omega

theorem ldReg (x : Reg) (y : Reg) : Statement (.ldReg x y) := by
  have := x.isLt
  have := y.isLt
  rw [statement_iff (.ldReg x y) (8 * 4096 + x.toNat * 256 + y.toNat * 16 + 0) (toNat_wordRegReg 8 x y 0 (by decide) (by decide))]
  simp [opcodeTable, opcodeRows0to7, opcodeRows8toD, opcodeRowsEtoF, Instr.mnemonic]; omega

theorem orReg (x : Reg) (y : Reg) : Statement (.orReg x y) := by
  have := x.isLt
  have := y.isLt
  rw [statement_iff (.orReg x y) (8 * 4096 + x.toNat * 256 + y.toNat * 16 + 1) (toNat_wordRegReg 8 x y 1 (by decide) (by decide))]
  simp [opcodeTable, opcodeRows0to7, opcodeRows8toD, opcodeRowsEtoF, Instr.mnemonic]; omega

theorem andReg (x : Reg) (y : Reg) : Statement (.andReg x y) := by
  have := x.isLt
  have := y.isLt
  rw [statement_iff (.andReg x y) (8 * 4096 + x.toNat * 256 + y.toNat * 16 + 2) (toNat_wordRegReg 8 x y 2 (by decide) (by decide))]
  simp [opcodeTable, opcodeRows0to7, opcodeRows8toD, opcodeRowsEtoF, Instr.mnemonic]; omega

theorem xorReg (x : Reg) (y : Reg) : Statement (.xorReg x y) := by
  have := x.isLt
  have := y.isLt
  rw [statement_iff (.xorReg x y) (8 * 4096 + x.toNat * 256 + y.toNat * 16 + 3) (toNat_wordRegReg 8 x y 3 (by decide) (by decide))]
  simp [opcodeTable, opcodeRows0to7, opcodeRows8toD, opcodeRowsEtoF, Instr.mnemonic]; omega

theorem addReg (x : Reg) (y : Reg) : Statement (.addReg x y) := by
  have := x.isLt
  have := y.isLt
  rw [statement_iff (.addReg x y) (8 * 4096 + x.toNat * 256 + y.toNat * 16 + 4) (toNat_wordRegReg 8 x y 4 (by decide) (by decide))]
  simp [opcodeTable, opcodeRows0to7, opcodeRows8toD, opcodeRowsEtoF, Instr.mnemonic]; omega

theorem subReg (x : Reg) (y : Reg) : Statement (.subReg x y) := by
  have := x.isLt
  have := y.isLt
  rw [statement_iff (.subReg x y) (8 * 4096 + x.toNat * 256 + y.toNat * 16 + 5) (toNat_wordRegReg 8 x y 5 (by decide) (by decide))]
  simp [opcodeTable, opcodeRows0to7, opcodeRows8toD, opcodeRowsEtoF, Instr.mnemonic]; omega

theorem shr (x : Reg) (y : Reg) : Statement (.shr x y) := by
  have := x.isLt
  have := y.isLt
  rw [statement_iff (.shr x y) (8 * 4096 + x.toNat * 256 + y.toNat * 16 + 6) (toNat_wordRegReg 8 x y 6 (by decide) (by decide))]
  simp [opcodeTable, opcodeRows0to7, opcodeRows8toD, opcodeRowsEtoF, Instr.mnemonic]; omega

theorem subnReg (x : Reg) (y : Reg) : Statement (.subnReg x y) := by
  have := x.isLt
  have := y.isLt
  rw [statement_iff (.subnReg x y) (8 * 4096 + x.toNat * 256 + y.toNat * 16 + 7) (toNat_wordRegReg 8 x y 7 (by decide) (by decide))]
  simp [opcodeTable, opcodeRows0to7, opcodeRows8toD, opcodeRowsEtoF, Instr.mnemonic]; omega

theorem shl (x : Reg) (y : Reg) : Statement (.shl x y) := by
  have := x.isLt
  have := y.isLt
  rw [statement_iff (.shl x y) (8 * 4096 + x.toNat * 256 + y.toNat * 16 + 14) (toNat_wordRegReg 8 x y 14 (by decide) (by decide))]
  simp [opcodeTable, opcodeRows0to7, opcodeRows8toD, opcodeRowsEtoF, Instr.mnemonic]; omega

theorem sneReg (x : Reg) (y : Reg) : Statement (.sneReg x y) := by
  have := x.isLt
  have := y.isLt
  rw [statement_iff (.sneReg x y) (9 * 4096 + x.toNat * 256 + y.toNat * 16 + 0) (toNat_wordRegReg 9 x y 0 (by decide) (by decide))]
  simp [opcodeTable, opcodeRows0to7, opcodeRows8toD, opcodeRowsEtoF, Instr.mnemonic]; omega

theorem ldI (nnn : Addr) : Statement (.ldI nnn) := by
  have := nnn.isLt
  rw [statement_iff (.ldI nnn) (10 * 4096 + nnn.toNat) (toNat_wordAddr 10 nnn (by decide))]
  simp [opcodeTable, opcodeRows0to7, opcodeRows8toD, opcodeRowsEtoF, Instr.mnemonic]; omega

theorem jpV0 (nnn : Addr) : Statement (.jpV0 nnn) := by
  have := nnn.isLt
  rw [statement_iff (.jpV0 nnn) (11 * 4096 + nnn.toNat) (toNat_wordAddr 11 nnn (by decide))]
  simp [opcodeTable, opcodeRows0to7, opcodeRows8toD, opcodeRowsEtoF, Instr.mnemonic]; omega

theorem rnd (x : Reg) (nn : Byte) : Statement (.rnd x nn) := by
  have := x.isLt
  have := nn.isLt
  rw [statement_iff (.rnd x nn) (12 * 4096 + x.toNat * 256 + nn.toNat) (toNat_wordRegByte 12 x nn.toNat (by decide) nn.isLt)]
  simp [opcodeTable, opcodeRows0to7, opcodeRows8toD, opcodeRowsEtoF, Instr.mnemonic]; omega

theorem drw (x : Reg) (y : Reg) (n : Nibble) : Statement (.drw x y n) := by
  have := x.isLt
  have := y.isLt
  have := n.isLt
  rw [statement_iff (.drw x y n) (13 * 4096 + x.toNat * 256 + y.toNat * 16 + n.toNat) (toNat_wordRegReg 13 x y n.toNat (by decide) n.isLt)]
  simp [opcodeTable, opcodeRows0to7, opcodeRows8toD, opcodeRowsEtoF, Instr.mnemonic]; omega

theorem skp (x : Reg) : Statement (.skp x) := by
  have := x.isLt
  rw [statement_iff (.skp x) (14 * 4096 + x.toNat * 256 + 158) (toNat_wordRegByte 14 x 158 (by decide) (by decide))]
  simp [opcodeTable, opcodeRows0to7, opcodeRows8toD, opcodeRowsEtoF, Instr.mnemonic]; omega

theorem sknp (x : Reg) : Statement (.sknp x) := by
  have := x.isLt
  rw [statement_iff (.sknp x) (14 * 4096 + x.toNat * 256 + 161) (toNat_wordRegByte 14 x 161 (by decide) (by decide))]
  simp [opcodeTable, opcodeRows0to7, opcodeRows8toD, opcodeRowsEtoF, Instr.mnemonic]; omega

theorem ldVxDt (x : Reg) : Statement (.ldVxDt x) := by
  have := x.isLt
  rw [statement_iff (.ldVxDt x) (15 * 4096 + x.toNat * 256 + 7) (toNat_wordRegByte 15 x 7 (by decide) (by decide))]
  simp [opcodeTable, opcodeRows0to7, opcodeRows8toD, opcodeRowsEtoF, Instr.mnemonic]; omega

theorem ldVxK (x : Reg) : Statement (.ldVxK x) := by
  have := x.isLt
  rw [statement_iff (.ldVxK x) (15 * 4096 + x.toNat * 256 + 10) (toNat_wordRegByte 15 x 10 (by decide) (by decide))]
  simp [opcodeTable, opcodeRows0to7, opcodeRows8toD, opcodeRowsEtoF, Instr.mnemonic]; omega

theorem ldDtVx (x : Reg) : Statement (.ldDtVx x) := by
  have := x.isLt
  rw [statement_iff (.ldDtVx x) (15 * 4096 + x.toNat * 256 + 21) (toNat_wordRegByte 15 x 21 (by decide) (by decide))]
  simp [opcodeTable, opcodeRows0to7, opcodeRows8toD, opcodeRowsEtoF, Instr.mnemonic]; omega

theorem ldStVx (x : Reg) : Statement (.ldStVx x) := by
  have := x.isLt
  rw [statement_iff (.ldStVx x) (15 * 4096 + x.toNat * 256 + 24) (toNat_wordRegByte 15 x 24 (by decide) (by decide))]
  simp [opcodeTable, opcodeRows0to7, opcodeRows8toD, opcodeRowsEtoF, Instr.mnemonic]; omega

theorem addIVx (x : Reg) : Statement (.addIVx x) := by
  have := x.isLt
  rw [statement_iff (.addIVx x) (15 * 4096 + x.toNat * 256 + 30) (toNat_wordRegByte 15 x 30 (by decide) (by decide))]
  simp [opcodeTable, opcodeRows0to7, opcodeRows8toD, opcodeRowsEtoF, Instr.mnemonic]; omega

theorem ldFVx (x : Reg) : Statement (.ldFVx x) := by
  have := x.isLt
  rw [statement_iff (.ldFVx x) (15 * 4096 + x.toNat * 256 + 41) (toNat_wordRegByte 15 x 41 (by decide) (by decide))]
  simp [opcodeTable, opcodeRows0to7, opcodeRows8toD, opcodeRowsEtoF, Instr.mnemonic]; omega

theorem ldBVx (x : Reg) : Statement (.ldBVx x) := by
  have := x.isLt
  rw [statement_iff (.ldBVx x) (15 * 4096 + x.toNat * 256 + 51) (toNat_wordRegByte 15 x 51 (by decide) (by decide))]
  simp [opcodeTable, opcodeRows0to7, opcodeRows8toD, opcodeRowsEtoF, Instr.mnemonic]; omega

theorem ldMemVx (x : Reg) : Statement (.ldMemVx x) := by
  have := x.isLt
  rw [statement_iff (.ldMemVx x) (15 * 4096 + x.toNat * 256 + 85) (toNat_wordRegByte 15 x 85 (by decide) (by decide))]
  simp [opcodeTable, opcodeRows0to7, opcodeRows8toD, opcodeRowsEtoF, Instr.mnemonic]; omega

theorem ldVxMem (x : Reg) : Statement (.ldVxMem x) := by
  have := x.isLt
  rw [statement_iff (.ldVxMem x) (15 * 4096 + x.toNat * 256 + 101) (toNat_wordRegByte 15 x 101 (by decide) (by decide))]
  simp [opcodeTable, opcodeRows0to7, opcodeRows8toD, opcodeRowsEtoF, Instr.mnemonic]; omega

end Sys2Proof.Laws.EncodingInTable
end

