-- ==== Sys2Proof/Tests/Slice0.lean ====
section
/-! SUPPORT. The model's own tests. Every expected value is taken from the spec: the encodings of R92 and R94, the vectors of
spec/95_test_vectors.md (named by their ids: S1 to S13, CF, A, M, G, T), or a rule's own example. At the end: for each
obligation with hypotheses, a state and operands that meet them. -/

namespace Sys2Proof.Tests

open Sys2Proof Sys2Proof.Machine

/-- A loaded core right after construction (the start state of spec/95_test_vectors.md), its generator at state 0. -/
def base : State := { State.construct 0 with loaded := true, rng := 0 }

/-- One cycle with the word `w` placed at `pc`. -/
def run (w : Nat) (s : State) : Result := step (s.withFetchWord 16 w)

/-- What `f` reads from the next state. -/
def after {α : Type} (r : Result) (f : State → α) : Option α :=
  match r with
  | .next t => some (f t)
  | .fault _ => none
  | .refused _ => none

/-- The fault an operation ends in. -/
def faultOf (r : Result) : Option Fault :=
  match r with
  | .next _ => none
  | .fault f => some f
  | .refused _ => none

/-- The refusal an operation ends in. -/
def refusalOf (r : Result) : Option Refusal :=
  match r with
  | .next _ => none
  | .fault _ => none
  | .refused q => some q

/-! Smoke tests: an ill-formed term for each check of WellFormed.lean. The words are those of §2.1 of the vectors. -/

theorem test_wf_family0 : wordLegal 0x0123#16 = false ∧ wordIllegal 0x0123#16 = true := by decide
theorem test_wf_family5 : wordLegal 0x5121#16 = false ∧ wordIllegal 0x5121#16 = true := by decide
theorem test_wf_family9 : wordLegal 0x9121#16 = false ∧ wordIllegal 0x9121#16 = true := by decide
theorem test_wf_family8 : wordLegal 0x800F#16 = false ∧ wordIllegal 0x800F#16 = true := by decide
theorem test_wf_familyE : wordLegal 0xE19F#16 = false ∧ wordIllegal 0xE19F#16 = true := by decide
theorem test_wf_familyF : wordLegal 0xF130#16 = false ∧ wordIllegal 0xF130#16 = true := by decide
theorem test_wf_legal : wordLegal 0x00EE#16 = true ∧ wordIllegal 0x00EE#16 = false := by decide
/-- S13. -/
theorem test_wf_rom : romFits (List.replicate 3585 0x00#8) = false ∧ romFits (List.replicate 3584 0x00#8) = true := by
  simp only [romFits, List.length_replicate]; decide
theorem test_wf_key : keyNumberOk 16 = false ∧ keyNumberOk 15 = true := by decide

/-! Decoding: each word is written out bit by bit from its format in R92 and its code in R94. -/

theorem test_decode_cls : decodeWord 0b0000000011100000#16 = .ok .cls := by decide
theorem test_decode_ret : decodeWord 0b0000000011101110#16 = .ok .ret := by decide
theorem test_decode_jp : decodeWord 0b0001001000101000#16 = .ok (.jp 0x228#12) := by decide
theorem test_decode_call : decodeWord 0b0010001100000000#16 = .ok (.call 0x300#12) := by decide
theorem test_decode_seImm : decodeWord 0b0011001100010000#16 = .ok (.seImm 0x3#4 0x10#8) := by decide
theorem test_decode_sneImm : decodeWord 0b0100001100010001#16 = .ok (.sneImm 0x3#4 0x11#8) := by decide
theorem test_decode_seReg : decodeWord 0b0101000100100000#16 = .ok (.seReg 0x1#4 0x2#4) := by decide
theorem test_decode_ldImm : decodeWord 0b0110001000000101#16 = .ok (.ldImm 0x2#4 0x05#8) := by decide
theorem test_decode_addImm : decodeWord 0b0111001000001010#16 = .ok (.addImm 0x2#4 0x0A#8) := by decide
theorem test_decode_ldReg : decodeWord 0b1000000100100000#16 = .ok (.ldReg 0x1#4 0x2#4) := by decide
theorem test_decode_orReg : decodeWord 0b1000000100100001#16 = .ok (.orReg 0x1#4 0x2#4) := by decide
theorem test_decode_andReg : decodeWord 0b1000000100100010#16 = .ok (.andReg 0x1#4 0x2#4) := by decide
theorem test_decode_xorReg : decodeWord 0b1000000100100011#16 = .ok (.xorReg 0x1#4 0x2#4) := by decide
theorem test_decode_addReg : decodeWord 0b1000000100100100#16 = .ok (.addReg 0x1#4 0x2#4) := by decide
theorem test_decode_subReg : decodeWord 0b1000000100100101#16 = .ok (.subReg 0x1#4 0x2#4) := by decide
theorem test_decode_shr : decodeWord 0b1000000100100110#16 = .ok (.shr 0x1#4 0x2#4) := by decide
theorem test_decode_subnReg : decodeWord 0b1000000100100111#16 = .ok (.subnReg 0x1#4 0x2#4) := by decide
theorem test_decode_shl : decodeWord 0b1000000100101110#16 = .ok (.shl 0x1#4 0x2#4) := by decide
theorem test_decode_sneReg : decodeWord 0b1001000100100000#16 = .ok (.sneReg 0x1#4 0x2#4) := by decide
theorem test_decode_ldI : decodeWord 0b1010001011110000#16 = .ok (.ldI 0x2F0#12) := by decide
theorem test_decode_jpV0 : decodeWord 0b1011001100000000#16 = .ok (.jpV0 0x300#12) := by decide
theorem test_decode_rnd : decodeWord 0b1100001100001111#16 = .ok (.rnd 0x3#4 0x0F#8) := by decide
theorem test_decode_drw : decodeWord 0b1101101010110101#16 = .ok (.drw 0xA#4 0xB#4 0x5#4) := by decide
theorem test_decode_skp : decodeWord 0b1110000110011110#16 = .ok (.skp 0x1#4) := by decide
theorem test_decode_sknp : decodeWord 0b1110000110100001#16 = .ok (.sknp 0x1#4) := by decide
theorem test_decode_ldVxDt : decodeWord 0b1111010100000111#16 = .ok (.ldVxDt 0x5#4) := by decide
theorem test_decode_ldVxK : decodeWord 0b1111010000001010#16 = .ok (.ldVxK 0x4#4) := by decide
theorem test_decode_ldDtVx : decodeWord 0b1111001100010101#16 = .ok (.ldDtVx 0x3#4) := by decide
theorem test_decode_ldStVx : decodeWord 0b1111001100011000#16 = .ok (.ldStVx 0x3#4) := by decide
theorem test_decode_addIVx : decodeWord 0b1111001000011110#16 = .ok (.addIVx 0x2#4) := by decide
theorem test_decode_ldFVx : decodeWord 0b1111001000101001#16 = .ok (.ldFVx 0x2#4) := by decide
theorem test_decode_ldBVx : decodeWord 0b1111000000110011#16 = .ok (.ldBVx 0x0#4) := by decide
theorem test_decode_ldMemVx : decodeWord 0b1111001001010101#16 = .ok (.ldMemVx 0x2#4) := by decide
theorem test_decode_ldVxMem : decodeWord 0b1111001001100101#16 = .ok (.ldVxMem 0x2#4) := by decide
/-- R72 and S1: the bytes 62 05 are the word 0x6205, and what follows is left over. -/
theorem test_decode_bytes : decodeBytes [0x62#8, 0x05#8, 0x72#8] = .ok (.ldImm 0x2#4 0x05#8, [0x72#8]) := by decide
theorem test_decode_truncated : decodeBytes [0x62#8] = .error .truncated := by decide
theorem test_decodeTableWord : decodeTableWord 16 0x6205 = some (.ldImm 0x2#4 0x05#8) ∧ decodeTableWord 16 0x0123 = none := by
  decide

/-! One cycle of each instruction. -/

/-- A state whose cell (5, 5) is set. -/
def cell55 : State := { base with fb := base.fb.set 325 true }

/-- G6 and S5. -/
theorem test_cls : after (run 0x00E0 cell55) (fun t => (t.fb[325], t.redraw, t.pc)) = some (false, true, 0x202#16) := by
  decide
/-- R140's example. -/
theorem test_ret :
    after (run 0x00EE { base with sp := 1, stack := base.stack.set 0 0x206#16, pc := 0x300#16 })
      (fun t => (t.sp.val, t.pc)) = some (0, 0x206#16) := by decide
/-- CF13. -/
theorem test_ret_underflow : faultOf (run 0x00EE base) = some .stackUnderflow := by decide
/-- CF1. -/
theorem test_jp : after (run 0x1234 base) (fun t => t.pc) = some 0x234#16 := by decide
/-- R142's example. -/
theorem test_call :
    after (run 0x2300 { base with pc := 0x204#16 }) (fun t => (t.stack[0], t.sp.val, t.pc)) =
      some (0x206#16, 1, 0x300#16) := by decide
/-- CF14. -/
theorem test_call_overflow : faultOf (run 0x2200 { base with sp := 16 }) = some .stackOverflow := by decide
/-- CF2, CF3. -/
theorem test_seImm :
    after (run 0x3142 (base.setReg 1 0x42)) (fun t => t.pc) = some 0x204#16 ∧
    after (run 0x3142 (base.setReg 1 0x43)) (fun t => t.pc) = some 0x202#16 := by decide
/-- CF4, CF5. -/
theorem test_sneImm :
    after (run 0x4142 (base.setReg 1 0x42)) (fun t => t.pc) = some 0x202#16 ∧
    after (run 0x4142 (base.setReg 1 0x43)) (fun t => t.pc) = some 0x204#16 := by decide
/-- CF6, CF7. -/
theorem test_seReg :
    after (run 0x5120 ((base.setReg 1 7).setReg 2 7)) (fun t => t.pc) = some 0x204#16 ∧
    after (run 0x5120 ((base.setReg 1 7).setReg 2 8)) (fun t => t.pc) = some 0x202#16 := by decide
/-- CF8, CF9. -/
theorem test_sneReg :
    after (run 0x9120 ((base.setReg 1 7).setReg 2 7)) (fun t => t.pc) = some 0x202#16 ∧
    after (run 0x9120 ((base.setReg 1 7).setReg 2 8)) (fun t => t.pc) = some 0x204#16 := by decide
/-- CF10, and CF11's first cycle. -/
theorem test_jpV0 :
    after (run 0xB300 (base.setReg 0 0x10)) (fun t => t.pc) = some 0x310#16 ∧
    after (run 0xBFFF (base.setReg 0 0x01)) (fun t => t.pc) = some 0x1000#16 := by decide

/-- V1, V2 and VF = 0x55, as the rows of §2.3 start. -/
def alu (a b : Byte) : State := ((base.setReg 1 a).setReg 2 b).setReg VF 0x55

/-- V1, VF and pc after a cycle. -/
def aluResult (r : Result) : Option (Byte × Byte × Word) := after r fun t => (t.reg 1, t.reg VF, t.pc)

/-- A1. -/
theorem test_ldImm : aluResult (run 0x6142 (alu 0 0)) = some (0x42, 0x55, 0x202) := by decide
/-- A2. -/
theorem test_addImm : aluResult (run 0x71FF (alu 0x02 0)) = some (0x01, 0x55, 0x202) := by decide
/-- A29. -/
theorem test_addImm_VF : after (run 0x7FFF (base.setReg VF 0x02)) (fun t => t.reg VF) = some 0x01 := by decide
/-- A3. -/
theorem test_ldReg : aluResult (run 0x8120 (alu 0x12 0x34)) = some (0x34, 0x55, 0x202) := by decide
/-- A4. -/
theorem test_orReg : aluResult (run 0x8121 (alu 0xF0 0x0F)) = some (0xFF, 0x00, 0x202) := by decide
/-- A27. -/
theorem test_orReg_VF : after (run 0x8F11 ((base.setReg VF 0x0F).setReg 1 0xF0)) (fun t => t.reg VF) = some 0x00 := by decide
/-- A5. -/
theorem test_andReg : aluResult (run 0x8122 (alu 0xF0 0x3C)) = some (0x30, 0x00, 0x202) := by decide
/-- A6. -/
theorem test_xorReg : aluResult (run 0x8123 (alu 0xFF 0x0F)) = some (0xF0, 0x00, 0x202) := by decide
/-- A7, A8. -/
theorem test_addReg :
    aluResult (run 0x8124 (alu 0xFA 0x0A)) = some (0x04, 0x01, 0x202) ∧
    aluResult (run 0x8124 (alu 0x10 0x20)) = some (0x30, 0x00, 0x202) := by decide
/-- A22, A23: VF as the destination and as the second operand. -/
theorem test_addReg_VF :
    after (run 0x8F14 ((base.setReg VF 0xFF).setReg 1 0x01)) (fun t => t.reg VF) = some 0x01 ∧
    aluResult (run 0x81F4 ((base.setReg VF 0xFF).setReg 1 0x01)) = some (0x00, 0x01, 0x202) := by decide
/-- A11, A12. -/
theorem test_subReg :
    aluResult (run 0x8125 (alu 0x03 0x0A)) = some (0xF9, 0x00, 0x202) ∧
    aluResult (run 0x8125 (alu 0x07 0x07)) = some (0x00, 0x01, 0x202) := by decide
/-- A24. -/
theorem test_subReg_VF : after (run 0x8F25 ((base.setReg VF 0x01).setReg 2 0x02)) (fun t => t.reg VF) = some 0x00 := by decide
/-- A13, A14. -/
theorem test_shr :
    aluResult (run 0x8126 (alu 0x05 0xFF)) = some (0x02, 0x01, 0x202) ∧
    aluResult (run 0x8126 (alu 0x04 0xFF)) = some (0x02, 0x00, 0x202) := by decide
/-- A25. -/
theorem test_shr_VF : after (run 0x8F16 (base.setReg VF 0x03)) (fun t => t.reg VF) = some 0x01 := by decide
/-- A15, A16. -/
theorem test_subnReg :
    aluResult (run 0x8127 (alu 0x03 0x0A)) = some (0x07, 0x01, 0x202) ∧
    aluResult (run 0x8127 (alu 0x0A 0x03)) = some (0xF9, 0x00, 0x202) := by decide
/-- A18, A19. -/
theorem test_shl :
    aluResult (run 0x812E (alu 0x81 0x00)) = some (0x02, 0x01, 0x202) ∧
    aluResult (run 0x812E (alu 0x40 0x00)) = some (0x80, 0x00, 0x202) := by decide
/-- A26. -/
theorem test_shl_VF : after (run 0x8F1E (base.setReg VF 0x80)) (fun t => t.reg VF) = some 0x01 := by decide
/-- R171's corner case: the mask 0 gives 0 whatever is drawn. -/
theorem test_rnd_mask0 : ∃ t, run 0xC300 (base.setReg 3 0x77) = .next t ∧ t.reg 3 = 0x00 ∧ t.pc = 0x202 :=
  ⟨_, rfl, BitVec.and_zero, by decide⟩

/-- M1. -/
theorem test_ldI : after (run 0xA2F0 base) (fun t => t.i) = some 0x2F0 := by decide
/-- M2, M3. -/
theorem test_addIVx :
    after (run 0xF11E ((base.setI 0xFF0).setReg 1 0x20)) (fun t => (t.i, t.reg VF)) = some (0x1010, 0x00) ∧
    after (run 0xF11E ((base.setI 0xFFFF).setReg 1 0xFF)) (fun t => (t.i, t.reg VF)) = some (0x00FE, 0x00) := by decide
/-- M4: 0x0F and 0x1A. -/
theorem test_ldFVx :
    after (run 0xF129 (base.setReg 1 0x0F)) (fun t => t.i) = some 0x4B ∧
    after (run 0xF129 (base.setReg 1 0x1A)) (fun t => t.i) = some 0x32 := by decide
/-- M5: 128. -/
theorem test_ldBVx :
    after (run 0xF133 ((base.setI 0x300).setReg 1 128)) (fun t => t.mem.readBytes 0x300 3) = some [0x01, 0x02, 0x08] := by
  decide
/-- M7. -/
theorem test_ldBVx_range : faultOf (run 0xF133 (base.setI 0xFFE)) = some (.memoryOutOfRange 0x1000) := by decide

/-- V[k] = 0x10 + k for k = 0 to 3. -/
def four : State := (((base.setReg 0 0x10).setReg 1 0x11).setReg 2 0x12).setReg 3 0x13

/-- M8. -/
theorem test_ldMemVx :
    after (run 0xF355 (four.setI 0x400)) (fun t => (t.mem.readBytes 0x400 5, t.i)) =
      some ([0x10, 0x11, 0x12, 0x13, 0x00], 0x400) := by decide
/-- M10. -/
theorem test_ldMemVx_range : faultOf (run 0xFF55 (base.setI 0xFF1)) = some (.memoryOutOfRange 0x1000) := by decide
/-- M11. -/
theorem test_ldVxMem :
    after (run 0xF265 ((four.setMem (four.mem.writeBytes 0x400 [0xAA, 0xBB, 0xCC])).setI 0x400))
      (fun t => (t.reg 0, t.reg 1, t.reg 2, t.reg 3)) = some (0xAA, 0xBB, 0xCC, 0x13) := by decide
/-- M13. -/
theorem test_ldVxMem_range : faultOf (run 0xF065 (base.setI 0x1010)) = some (.memoryOutOfRange 0x1010) := by decide

/-- G1: cells (5, 3) and (6, 3) set, their neighbours not. -/
theorem test_drw :
    after (run 0xD121 ((((base.setReg 1 0x45).setReg 2 0x23).setI 0x300).setMem (base.mem.write 0x300 0xC0)))
      (fun t => ((t.fb[196], t.fb[197]), (t.fb[198], t.fb[199]), t.reg VF, t.redraw)) =
      some ((false, true), (true, false), 0x00, true) := by decide
/-- R211, R212: column and row 0x41 wrap to cell (1, 1), index 65; it is set already; VF is the coordinates and then the
collision. -/
theorem test_drw_VF :
    after (run 0xDFF1 ({ (base.setReg VF 0x41).setI 0x300 with
        fb := base.fb.set 65 true, mem := base.mem.write 0x300 0x80 })) (fun t => (t.fb[65], t.reg VF)) =
      some (false, 0x01) := by decide

/-- Key 7 down, and V1 = 0x17. -/
def key7 : State := { base.setReg 1 0x17 with keys := base.keys.set 7 true }

/-- T1, T2. -/
theorem test_skp :
    after (run 0xE19E (base.setReg 1 0x17)) (fun t => t.pc) = some 0x202 ∧
    after (run 0xE19E key7) (fun t => t.pc) = some 0x204 := by decide
/-- T3, T4. -/
theorem test_sknp :
    after (run 0xE1A1 (base.setReg 1 0x17)) (fun t => t.pc) = some 0x204 ∧
    after (run 0xE1A1 key7) (fun t => t.pc) = some 0x202 := by decide
/-- T5. -/
theorem test_ldVxDt : after (run 0xF107 (base.setDt 0x3C)) (fun t => (t.reg 1, t.pc)) = some (0x3C, 0x202) := by decide
/-- T6: one cycle. -/
theorem test_ldVxK_waits :
    after (run 0xF10A (base.setReg 1 0x77)) (fun t => (t.reg 1, t.pc)) = some (0x77, 0x200) := by decide
/-- T7. -/
theorem test_ldVxK :
    after (run 0xF10A { base with keys := (base.keys.set 3 true).set 0xB true }) (fun t => (t.reg 1, t.pc)) =
      some (0x03, 0x202) := by decide
/-- R234's example. -/
theorem test_ldDtVx : after (run 0xF315 (base.setReg 3 5)) (fun t => (t.dt, t.pc)) = some (0x05, 0x202) := by decide
/-- T9's first cycle. -/
theorem test_ldStVx : after (run 0xF018 (base.setSt 1)) (fun t => (t.st, t.beep)) = some (0x00, false) := by decide

/-! The cycle and the host's operations. -/

/-- S12. -/
theorem test_unloaded : after (step { base with loaded := false }) (fun t => (t.pc, t.loaded)) = some (0x200, false) := by
  decide
/-- CF12's second cycle, and the end of CF11. -/
theorem test_pc_check :
    faultOf (step { base with pc := 0x201 }) = some (.invalidProgramCounter 0x201) ∧
    faultOf (step { base with pc := 0x1000 }) = some (.invalidProgramCounter 0x1000) := by decide
/-- §2.1: a load of 0 bytes and one cycle. -/
theorem test_empty_rom : faultOf (step (afterOp (.load []) State.reset)) = some (.unimplementedOpcode 0x0000) := by decide
/-- §2.1. -/
theorem test_illegal_word : faultOf (run 0x5121 base) = some (.unimplementedOpcode 0x5121) := by decide
/-- T8 and T11. -/
theorem test_tick :
    (tickTimers (base.setSt 2)).beep = false ∧ (tickTimers (tickTimers (base.setSt 2))).beep = true ∧
    (tickTimers (tickTimers (base.setSt 2))).st = 0x00 ∧ (tickTimers (base.setDt 5)).dt = 0x04 := by decide
/-- T10: the calls give true, then false. -/
theorem test_consumedBeep :
    (consumedBeep (tickTimers (tickTimers (base.setSt 1)))).1 = true ∧
    (consumedBeep (consumedBeep (tickTimers (base.setSt 1))).2).1 = false := by decide
/-- R71, R85: the first byte of the glyph of F, and the byte after the table. -/
theorem test_reset_memory : State.reset.mem.read 0x04B = 0xF0 ∧ State.reset.mem.read 0x050 = 0x00 := by decide
/-- P1's bytes, in place after `load`, and the byte before them. -/
theorem test_load :
    (afterOp (.load [0x00, 0xE0, 0x62]) State.reset).mem.readBytes 0x1FF 4 = [0x00, 0x00, 0xE0, 0x62] := by decide

/-! Witnesses: for each obligation with hypotheses, a state and operands that meet all of them together, at the boundary
values of each clause. Obligations without hypotheses (the register forms of the ALU among them) need none. -/

/-- The state after one cycle with `w` placed at `pc`. -/
def next (w : Nat) (s : State) : State := afterOp .cycle (s.withFetchWord 16 w)

/-- `base` with the word `w` stored at `pc`, ready to be fetched. -/
def placed (w : Nat) (s : State) : State := s.withFetchWord 16 w

theorem witness_EncodeInvertsDecode : decodeWord 0x812E#16 = .ok (.shl 0x1#4 0x2#4) := by decide
theorem witness_ExactlyTheTableWordsDecode :
    wordIllegal 0xF066#16 = true ∧ wordLegal 0xF065#16 = true ∧ decodeWord 0xF065#16 = .ok (.ldVxMem 0x0#4) := by decide

/-- `6205` at the last legal `pc`. -/
def lastWord : State := placed 0x6205 { base with pc := 0xFFE#16 }

theorem lastWord_bytes : lastWord.mem.read lastWord.pc.toNat = 0x62#8 ∧ lastWord.mem.read (lastWord.pc.toNat + 1) = 0x05#8 := by
  decide

theorem witness_StepRunsTheDecodedInstruction :
    lastWord.loaded = true ∧ lastWord.pc.toNat < 4096 ∧ lastWord.pc.toNat % 2 = 0 ∧
    decodeWord (BitVec.ofNat 16 (0x100 * (lastWord.mem.read lastWord.pc.toNat).toNat +
      (lastWord.mem.read (lastWord.pc.toNat + 1)).toNat)) = .ok (.ldImm 0x2#4 0x05#8) := by
  rw [lastWord_bytes.1, lastWord_bytes.2]
  exact ⟨rfl, by decide, by decide, by decide⟩

/-- The two illegal boundary values, and the last legal one. -/
theorem witness_IllegalPcFaults :
    base.loaded = true ∧ (0x1000#16).toNat ≥ 4096 ∧ (0xFFF#16).toNat % 2 = 1 ∧
      ¬((0xFFE#16).toNat ≥ 4096 ∨ (0xFFE#16).toNat % 2 = 1) ∧
      faultOf (step { base with pc := 0xFFF#16 }) = some (.invalidProgramCounter 0xFFF#16) := by decide
theorem witness_IllegalWordFaults :
    let s := placed 0x9121 base
    s.loaded = true ∧ s.pc.toNat < 4096 ∧ s.pc.toNat % 2 = 0 ∧
      0x9121#16 = wordOfBytes (s.mem.read s.pc.toNat) (s.mem.read (s.pc.toNat + 1)) ∧ wordIllegal 0x9121#16 = true := by decide
theorem witness_LoadedIsSetOnceAndGatesTheCycle :
    State.reset.loaded = false ∧ (∃ t, load [0x12#8, 0x00#8] State.reset = .next t) ∧ base.loaded = true ∧
      (∀ rom, HostOp.cycle ≠ .load rom) := ⟨rfl, ⟨_, rfl⟩, rfl, by simp⟩
/-- Each fault's condition at its boundary, and an instruction that meets none. -/
theorem witness_InstructionsCompleteOrFaultExactly :
    raisesFault (.call 0x300#12) { base with sp := 16 } .stackOverflow ∧
    raisesFault .ret base .stackUnderflow ∧
    raisesFault (.ldBVx 0x0#4) (base.setI 0xFFE#16) (.memoryOutOfRange 0x1000) ∧
    raisesFault (.drw 0x0#4 0x0#4 0x1#4) (base.setI 0x1000#16) (.memoryOutOfRange 0x1000) ∧
    ∀ f, ¬raisesFault (.ldBVx 0x0#4) (base.setI 0xFFD#16) f :=
  ⟨.inl ⟨_, rfl, rfl, rfl⟩, .inr (.inl ⟨rfl, rfl, rfl⟩), .inr (.inr ⟨by decide, by decide, rfl⟩),
    .inr (.inr ⟨by decide, by decide, rfl⟩), by
      rintro f (⟨_, h, -⟩ | ⟨h, -⟩ | ⟨-, h, -⟩)
      · cases h
      · cases h
      · revert h; decide⟩
theorem witness_CycleReportsTheFirstFailedCheck :
    faultOf (step { base with pc := 0x1001#16 }) = some (.invalidProgramCounter 0x1001#16) ∧
    faultOf (step (placed 0x00E1 base)) = some (.unimplementedOpcode 0x00E1#16) ∧
    faultOf (step (placed 0x00EE base)) = some .stackUnderflow := by decide
theorem witness_FaultLeavesTheStateAndRepeats : step (placed 0x00EE base) = .fault .stackUnderflow := rfl

theorem witness_register_clauses : (0xE#4 : Reg) ≠ VF ∧ (0x0#4 : Reg) ≠ 0xE#4 ∧ (0x0#4 : Reg) ≠ VF := by decide
theorem witness_JpGoesToItsAddress :
    (base.loaded = true ∧ (0x201#12).toNat % 2 = 1) ∧ base.pc.toNat = (0x200#12).toNat := by decide
/-- Both sides of each fault's boundary. -/
theorem witness_StackAndRomFaultsHaveTheirConditions :
    ({ base with sp := 16 } : State).sp.val = 16 ∧ ({ base with sp := 15 } : State).sp.val ≠ 16 ∧ base.sp.val = 0 ∧
    ({ base with sp := 1 } : State).sp.val ≠ 0 ∧ State.reset.loaded = false ∧
    (List.replicate 3585 0x12#8).length > 4096 - 0x200 ∧ ¬(List.replicate 3584 0x12#8).length > 4096 - 0x200 := by
  rw [List.length_replicate, List.length_replicate]
  exact ⟨rfl, by decide, rfl, by decide, rfl, by decide, by decide⟩
theorem witness_CallPushesTheReturnAddress :
    base.sp.val < 16 ∧ ({ base with sp := 15 } : State).sp.val < 16 ∧ ({ base with sp := 16 } : State).sp.val = 16 := by decide
theorem witness_RetPopsTheTopEntry :
    ({ base with sp := 1 } : State).sp.val = (0 : Fin 16).val + 1 ∧
    ({ base with sp := 16 } : State).sp.val = (15 : Fin 16).val + 1 ∧ base.sp.val = 0 := by decide
theorem witness_BcdStoresThreeDigits : (base.setI 0xFFD#16).i.toNat + 2 ≤ 0xFFF ∧ 0xFFC < (base.setI 0xFFD#16).i.toNat := by
  decide
theorem witness_StoreWritesV0ToVx :
    (base.setI 0xFF0#16).i.toNat + (0xF#4 : Reg).toNat ≤ 0xFFF ∧ (0xF#4 : Reg).toNat ≤ (0xF#4 : Reg).toNat ∧
      (base.setI 0x400#16).i.toNat + (0x0#4 : Reg).toNat < 0x401 := by decide
theorem witness_LoadReadsV0ToVx :
    (base.setI 0xFFF#16).i.toNat + (0x0#4 : Reg).toNat ≤ 0xFFF ∧ ¬(0x1#4 : Reg).toNat ≤ (0x0#4 : Reg).toNat := by decide
/-- The lowest I at which each access fails, and an I above 0xFFF. -/
theorem witness_AccessPastMemoryFaults :
    (0 < (0x4#4 : Nibble).toNat ∧ (base.setI 0xFFD#16).i.toNat + (0x4#4 : Nibble).toNat - 1 > 0xFFF) ∧
    (base.setI 0xFFE#16).i.toNat + 2 > 0xFFF ∧ (base.setI 0xFF1#16).i.toNat + (0xF#4 : Reg).toNat > 0xFFF ∧
    max (base.setI 0xFFE#16).i.toNat 0x1000 = 0x1000 ∧ max (base.setI 0x1010#16).i.toNat 0x1000 = 0x1010 := by decide
theorem witness_StoreThenLoadRestoresRegisters :
    ∃ t u : State, exec (.ldMemVx 0x3#4) (four.setI 0x400#16) = .next t ∧ u.mem = t.mem ∧
      u.i = (four.setI 0x400#16).i ∧ u.reg 0x0#4 = 0x00#8 :=
  ⟨_, afterOp .cycle (placed 0x6000 (next 0xF355 (four.setI 0x400#16))) |>.setMem _, rfl, rfl, rfl, rfl⟩
theorem witness_CallThenRetComesBack :
    ∃ t : State, exec (.call 0x206#12) base = .next t ∧ (t.setReg 0x0#4 0x01#8).sp = t.sp ∧
      (t.setReg 0x0#4 0x01#8).stack = t.stack := ⟨_, rfl, rfl, rfl⟩

/-- No rows, and four rows up to the last byte. -/
theorem witness_DrwFlipsTheSpritesCells :
    ((0x0#4 : Nibble).toNat = 0 ∨ (base.setI 0xFFFF#16).i.toNat + (0x0#4 : Nibble).toNat - 1 ≤ 0xFFF) ∧
    ((0x4#4 : Nibble).toNat = 0 ∨ (base.setI 0xFFC#16).i.toNat + (0x4#4 : Nibble).toNat - 1 ≤ 0xFFF) := by decide
/-- The glyph of 0 at (63, 0) lights cell (63, 0), its bits past the edge light (0, 0), and (1, 1) stays dark. -/
theorem witness_spriteLights :
    spriteLights (base.setReg 0x1#4 63#8) 0x1#4 0x2#4 0x1#4 63 ∧ spriteLights (base.setReg 0x1#4 63#8) 0x1#4 0x2#4 0x1#4 0 ∧
    ¬spriteLights (base.setReg 0x1#4 63#8) 0x1#4 0x2#4 0x1#4 65 := by
  refine ⟨⟨0, by decide, 0, by decide, by decide, by decide⟩, ⟨0, by decide, 1, by decide, by decide, by decide⟩, ?_⟩
  rintro ⟨k, hk, b, hb, -, hj⟩
  have h0 : k = 0 := by simpa using hk
  subst h0
  have h2 : ((base.setReg 0x1#4 63#8).reg 0x2#4).toNat = 0 := by decide
  rw [h2] at hj
  simp at hj
  omega
/-- The collision clauses of the two drawing statements. -/
theorem witness_collision :
    ({ base with fb := base.fb.set 0 true } : State).fb[0] = true ∧ (∀ j : Fin 2048, base.fb[j] = false) :=
  ⟨by decide, fun j => by simp [base, State.construct]⟩
theorem witness_DrawingTwiceRestoresTheBuffer :
    ∃ t u : State, exec (.drw 0x1#4 0x2#4 0x5#4) base = .next t ∧ u.fb = t.fb ∧ u.mem = base.mem ∧ u.i = base.i ∧
      u.reg 0x1#4 = base.reg 0x1#4 ∧ u.reg 0x2#4 = base.reg 0x2#4 := ⟨_, _, rfl, rfl, rfl, rfl, rfl, rfl⟩
theorem witness_OnlyClsAndDrwChangeTheDisplay :
    (∃ t, exec .cls { base with fb := base.fb.set 0 true } = .next t ∧ t.fb[0] ≠ true) ∧ HostOp.tickTimers ≠ .cycle :=
  ⟨⟨_, rfl, by decide⟩, by simp⟩

/-- The low nibble at both ends of its range, the high nibble set. -/
theorem witness_KeySkipsTestTheLowNibblesKey :
    ((base.setReg 0x1#4 0x10#8).reg 0x1#4).toNat % 16 = (0 : Fin 16).val ∧
    ((base.setReg 0x1#4 0xFF#8).reg 0x1#4).toNat % 16 = (15 : Fin 16).val := by decide
theorem witness_LdVxDtReadsTheDelayTimer :
    (∃ u, exec (.ldDtVx 0x3#4) (base.setReg 0x3#4 0x05#8) = .next u ∧ u.dt ≠ base.dt) ∧
      HostOp.framebuffer ≠ .cycle ∧ HostOp.framebuffer ≠ .tickTimers := ⟨⟨_, rfl, by decide⟩, by simp, by simp⟩
theorem witness_LdVxKWaitsForTheLowestKey :
    (∀ k : Fin 16, base.keys[k] = false) ∧
    (({ base with keys := base.keys.set 0 true } : State).keys[0] = true ∧ ∀ j : Fin 16, j < 0 → base.keys[j] = false) ∧
    (({ base with keys := base.keys.set 15 true } : State).keys[15] = true ∧
      ∀ j : Fin 16, j < 15 → ({ base with keys := base.keys.set 15 true } : State).keys[j] = false) := by decide
theorem witness_AwaitingKeyEndsWhenAKeyIsPressed : AwaitingKey (placed 0xF40A base) :=
  ⟨rfl, by decide, ⟨0x4#4, by decide⟩, by decide⟩
theorem witness_TicksCountDownAndBeepOnce :
    (0 < (base.setSt 1).st.toNat ∧ (base.setSt 1).st.toNat ≤ 1) ∧ ¬(0 < base.st.toNat ∧ base.st.toNat ≤ 1) := by decide

/-- A destination changes, VF changes as a flag, and an instruction that writes a flag completes. -/
theorem witness_RegistersChangeOnlyAsDestinationOrFlag :
    (∃ t, exec (.ldImm 0x1#4 0x42#8) base = .next t ∧ t.reg 0x1#4 ≠ base.reg 0x1#4) ∧
    (∃ t, exec (.addReg 0x1#4 0x2#4) (alu 0xFA#8 0x0A#8) = .next t ∧ t.reg VF ≠ (alu 0xFA#8 0x0A#8).reg VF) ∧
    writesFlag (.addReg 0x1#4 0x2#4) := ⟨⟨_, rfl, by decide⟩, ⟨_, rfl, by decide⟩, trivial⟩
/-- A writer of each piece changes it. (Of `rng` the generator is open, so only that RND completes.) -/
theorem witness_StateChangesOnlyByItsWriters :
    (∃ t, exec (.ldI 0x2F0#12) base = .next t ∧ t.i ≠ base.i) ∧
    (∃ t, exec (.call 0x300#12) base = .next t ∧ t.sp ≠ base.sp ∧ t.stack ≠ base.stack) ∧
    (∃ t, exec (.ldDtVx 0x3#4) (base.setReg 0x3#4 0x05#8) = .next t ∧ t.dt ≠ base.dt) ∧
    (∃ t, exec (.ldStVx 0x3#4) (base.setReg 0x3#4 0x05#8) = .next t ∧ t.st ≠ base.st) ∧
    (∃ t, exec (.rnd 0x1#4 0xFF#8) base = .next t) ∧
    (∃ t, exec .cls base = .next t ∧ t.redraw ≠ base.redraw) ∧
    (∃ t, exec (.ldMemVx 0x0#4) (alu 0x00#8 0x00#8) = .next t ∧ t.mem.read 0 ≠ base.mem.read 0) :=
  ⟨⟨_, rfl, by decide⟩, ⟨_, rfl, by decide, by decide⟩, ⟨_, rfl, by decide⟩, ⟨_, rfl, by decide⟩, ⟨_, rfl⟩,
    ⟨_, rfl, by decide⟩, ⟨_, rfl, by decide⟩⟩
/-- An instruction of each class completes; the wait in both of its cases. -/
theorem witness_PcMovesByItsClass :
    (∃ t, exec .cls base = .next t) ∧ (∃ t, exec (.skp 0x1#4) base = .next t) ∧
    (∃ t, exec .ret { base with sp := 1 } = .next t) ∧ (∃ t, exec (.jpV0 0xFFF#12) base = .next t) ∧
    (∃ t, exec (.ldVxK 0x1#4) base = .next t) ∧ (∃ t, exec (.ldVxK 0x1#4) key7 = .next t) :=
  ⟨⟨_, rfl⟩, ⟨_, rfl⟩, ⟨_, rfl⟩, ⟨_, rfl⟩, ⟨_, rfl⟩, ⟨_, rfl⟩⟩
theorem witness_NoInstructionReadsSoundTimerOrLatches :
    (∃ t, exec (.ldVxDt 0x1#4) base = .next t) ∧ exec .ret base = .fault .stackUnderflow := ⟨⟨_, rfl⟩, rfl⟩

theorem witness_ConstructionGivesTheResetValues : 0x050 ≤ 0x050 := by decide
/-- The longest ROM, one byte more, and a loaded core. -/
theorem witness_LoadPlacesTheRomVerbatim :
    State.reset.loaded = false ∧ (List.replicate 3584 0x12#8).length ≤ 3584 ∧
    3584 < (List.replicate 3585 0x12#8).length ∧ base.loaded = true := by
  exact ⟨rfl, by rw [List.length_replicate], by rw [List.length_replicate]; decide, rfl⟩
theorem witness_SetKeyWritesOneKey : 15 < 16 ∧ (∃ t, setKey (15 : Fin 16).val true base = .next t) ∧
    refusalOf (setKey 16 true base) = some (.keyOutsideInterface 16) := ⟨by decide, ⟨_, rfl⟩, rfl⟩
theorem witness_HostOperationsChangeOnlyTheirOwnState : HostOp.load [] ≠ .cycle ∧ HostOp.setKey 16 true ≠ .cycle := by
  decide

/-- The invariant in a state with a full stack of return addresses, from which a cycle completes. -/
theorem witness_EveryStepKeepsTheInvariant :
    Inv (placed 0x00EE { base with sp := 16, stack := Vector.replicate 16 0x1000#16 }) ∧
    ∃ t, step (placed 0x00EE { base with sp := 16, stack := Vector.replicate 16 0x1000#16 }) = .next t :=
  ⟨⟨by decide, by decide, by decide⟩, ⟨_, rfl⟩⟩
theorem witness_EveryOperationKeepsTheInvariant : Inv base := ⟨by decide, by decide, by decide⟩
/-- A core that has loaded `2202 00EE` and run the call: an entry is on the stack and RET completes. -/
theorem witness_ReachablePcAndStackAreBounded :
    Reachable (afterOp .cycle (afterOp (.load [0x22#8, 0x02#8, 0x00#8, 0xEE#8]) State.reset)) ∧
    0 < (afterOp .cycle (afterOp (.load [0x22#8, 0x02#8, 0x00#8, 0xEE#8]) State.reset)).sp.val ∧
    ∃ t, exec .ret (afterOp .cycle (afterOp (.load [0x22#8, 0x02#8, 0x00#8, 0xEE#8]) State.reset)) = .next t :=
  ⟨.after _ _ (.after _ _ (.construct _)), by decide, ⟨_, rfl⟩⟩

end Sys2Proof.Tests
end

section
/-! The invariant of `Safety.lean` is kept by every operation: first what each state operation needs to keep it, then the
instructions, the cycle and the other operations of R5. -/

namespace Sys2Proof

open Sys2Proof.Machine

/-! The updates that touch no piece of state the invariant speaks of. -/

section
variable {s : State}

@[simp] theorem inv_setReg (x : Reg) (b : Byte) : Inv (s.setReg x b) ↔ Inv s := Iff.rfl

@[simp] theorem inv_setRegs (bytes : List Byte) : Inv (s.setRegs bytes) ↔ Inv s := Iff.rfl

@[simp] theorem inv_setRegFlag (x : Reg) (b f : Byte) : Inv (s.setRegFlag x b f) ↔ Inv s := Iff.rfl

@[simp] theorem inv_setI (w : Word) : Inv (s.setI w) ↔ Inv s := Iff.rfl

@[simp] theorem inv_setDt (b : Byte) : Inv (s.setDt b) ↔ Inv s := Iff.rfl

@[simp] theorem inv_setSt (b : Byte) : Inv (s.setSt b) ↔ Inv s := Iff.rfl

@[simp] theorem inv_setRng (g : RngState) : Inv (s.setRng g) ↔ Inv s := Iff.rfl

@[simp] theorem inv_setDisplay (d : Display) : Inv (s.setDisplay d) ↔ Inv s := Iff.rfl

end

/-! The program counter. After a fetch `pc` is even and at most 0xFFE, so the sequential and the skip class stay far
below the bound of R33. -/

theorem toNat_add_of_pcLegal {pc : Word} {k : Nat} (hp : pcLegal pc = true) (hk : k ≤ 4) :
    (pc + BitVec.ofNat 16 k).toNat = pc.toNat + k := by
  obtain ⟨hlt, -⟩ := (pcLegal_iff pc).1 hp
  simp only [BitVec.toNat_add, BitVec.toNat_ofNat]
  omega

theorem Inv.jump {s : State} (hs : Inv s) {w : Word} (hw : w.toNat ≤ 0x10FE) : Inv (s.jump w) := by
  obtain ⟨hmem, -, hstack⟩ := hs
  exact ⟨hmem, hw, hstack⟩

theorem Inv.jump_add {s : State} (hs : Inv s) (hp : pcLegal s.pc = true) {k : Nat} (hk : k ≤ 4) :
    Inv (s.jump (s.pc + BitVec.ofNat 16 k)) := by
  obtain ⟨hlt, -⟩ := (pcLegal_iff s.pc).1 hp
  exact hs.jump (by rw [toNat_add_of_pcLegal hp hk]; omega)

theorem Inv.advance {s : State} (hs : Inv s) (hp : pcLegal s.pc = true) : Inv s.advance :=
  hs.jump_add hp (by decide : 2 ≤ 4)

theorem Inv.skipIf {s : State} (hs : Inv s) (hp : pcLegal s.pc = true) (c : Bool) : Inv (s.skipIf c) := by
  cases c with
  | false => exact hs.advance hp
  | true => exact hs.jump_add hp (le_refl 4)

/-! The memory and the stack. -/

theorem Inv.setMem {s : State} (hs : Inv s) {m : Memory} (hm : m.wf = true) : Inv (s.setMem m) := by
  obtain ⟨-, hpc, hstack⟩ := hs
  exact ⟨hm, hpc, hstack⟩

theorem Inv.writeBytes {s : State} (hs : Inv s) {a : Nat} {bytes : List Byte} (h : a + bytes.length ≤ 0x1000) :
    Inv (s.setMem (s.mem.writeBytes a bytes)) := by
  have ⟨hmem, _, _⟩ := hs
  exact hs.setMem (Memory.wf_writeBytes s.mem a bytes hmem h)

/-- What is pushed must be a return address the invariant admits: even and at most 4096 (R140). -/
theorem Inv.push {s t : State} (hs : Inv s) {ret : Word} (heven : ret.toNat % 2 = 0) (hle : ret.toNat ≤ 4096)
    (h : s.push ret = .ok t) : Inv t := by
  obtain ⟨hmem, hpc, hstack⟩ := hs
  by_cases hsp : s.sp.val < 16
  · rw [State.push_ok s ret hsp] at h
    cases h
    refine ⟨hmem, hpc, fun j hj => ?_⟩
    by_cases hj' : s.sp.val = j.val
    · simpa [hj'] using ⟨heven, hle⟩
    · have hbelow : j.val < s.sp.val := by simp at hj; omega
      simpa [hj'] using hstack j hbelow
  · rw [State.push_full s ret (by omega)] at h
    cases h

/-- A pop answers an entry that was occupied, so an address the invariant admits, and leaves the entries below it. -/
theorem Inv.pop {s t : State} (hs : Inv s) {ret : Word} (h : s.pop = .ok (ret, t)) :
    Inv t ∧ ret.toNat ≤ 4096 := by
  obtain ⟨hmem, hpc, hstack⟩ := hs
  by_cases hsp : s.sp.val = 0
  · rw [State.pop_empty s hsp] at h
    cases h
  · rw [State.pop_ok s hsp] at h
    cases h
    have htop := hstack ⟨s.sp.val - 1, by omega⟩ (by simp; omega)
    exact ⟨⟨hmem, hpc, fun j hj => hstack j (by simp at hj; omega)⟩, htop.2⟩

/-! How an instruction ends. -/

/-- If the instruction completes, its next state meets the invariant; a fault and a refusal write nothing (R126). -/
def NextMeetsInv (r : Result) : Prop := ∀ t, r = .next t → Inv t

@[simp] theorem nextMeetsInv_next (t : State) : NextMeetsInv (.next t) ↔ Inv t := by
  simp [NextMeetsInv]

@[simp] theorem nextMeetsInv_fault (f : Fault) : NextMeetsInv (.fault f) := by
  simp [NextMeetsInv]

theorem execJp_nextMeetsInv {s : State} (hs : Inv s) (nnn : Addr) : NextMeetsInv (execJp nnn s) := by
  have hlt := nnn.isLt
  exact (nextMeetsInv_next _).2 (hs.jump (by rw [toNat_zext16]; omega))

/-- The highest `pc` of all: 0xFFF + 0xFF (R147). -/
theorem execJpV0_nextMeetsInv {s : State} (hs : Inv s) (nnn : Addr) : NextMeetsInv (execJpV0 nnn s) := by
  have hnnn := nnn.isLt
  have hreg := (s.reg 0x0#4).isLt
  exact (nextMeetsInv_next _).2 (hs.jump (by rw [BitVec.toNat_ofNat]; omega))

theorem execRet_nextMeetsInv {s : State} (hs : Inv s) : NextMeetsInv (execRet s) := by
  unfold execRet
  cases h : s.pop with
  | error f => exact nextMeetsInv_fault f
  | ok popped =>
    obtain ⟨ht, hret⟩ := hs.pop h
    exact (nextMeetsInv_next _).2 (ht.jump (by omega))

/-- The pushed address is `pc + 2`, with `pc` even and at most 0xFFE (R142). -/
theorem execCall_nextMeetsInv {s : State} (hs : Inv s) (hp : pcLegal s.pc = true) (nnn : Addr) :
    NextMeetsInv (execCall nnn s) := by
  have hlt := nnn.isLt
  obtain ⟨hpc, heven⟩ := (pcLegal_iff s.pc).1 hp
  have hret : (s.pc + 2#16).toNat = s.pc.toNat + 2 := toNat_add_of_pcLegal hp (by decide)
  unfold execCall
  cases h : s.push (s.pc + 2#16) with
  | error f => exact nextMeetsInv_fault f
  | ok t =>
    have ht : Inv t := hs.push (by omega) (by omega) h
    exact (nextMeetsInv_next _).2 (ht.jump (by rw [toNat_zext16]; omega))

theorem execLdVxK_nextMeetsInv {s : State} (hs : Inv s) (hp : pcLegal s.pc = true) (x : Reg) :
    NextMeetsInv (execLdVxK x s) := by
  unfold execLdVxK
  cases s.lowestKey with
  | none => simpa using hs
  | some k => simp [hs, hp, Inv.advance]

theorem execDrw_nextMeetsInv {s : State} (hs : Inv s) (hp : pcLegal s.pc = true) (x y : Reg) (n : Nibble) :
    NextMeetsInv (execDrw x y n s) := by
  rw [execDrw_eq]
  split
  · simp [hs, hp, Inv.advance]
  · exact nextMeetsInv_fault _

theorem execLdBVx_nextMeetsInv {s : State} (hs : Inv s) (hp : pcLegal s.pc = true) (x : Reg) :
    NextMeetsInv (execLdBVx x s) := by
  rw [execLdBVx_eq]
  split
  case isTrue hfits => exact (nextMeetsInv_next _).2 ((hs.writeBytes (by simpa using hfits)).advance hp)
  case isFalse => exact nextMeetsInv_fault _

theorem execLdMemVx_nextMeetsInv {s : State} (hs : Inv s) (hp : pcLegal s.pc = true) (x : Reg) :
    NextMeetsInv (execLdMemVx x s) := by
  rw [execLdMemVx_eq]
  split
  case isTrue hfits =>
    rw [← State.length_regsUpTo s x] at hfits
    exact (nextMeetsInv_next _).2 ((hs.writeBytes hfits).advance hp)
  case isFalse => exact nextMeetsInv_fault _

theorem execLdVxMem_nextMeetsInv {s : State} (hs : Inv s) (hp : pcLegal s.pc = true) (x : Reg) :
    NextMeetsInv (execLdVxMem x s) := by
  rw [execLdVxMem_eq]
  split
  · simp [hs, hp, Inv.advance]
  · exact nextMeetsInv_fault _

/-- Every instruction, run from where it can be fetched. -/
theorem exec_nextMeetsInv (i : Instr) {s : State} (hs : Inv s) (hp : pcLegal s.pc = true) :
    NextMeetsInv (exec i s) := by
  cases i with
  | jp nnn => exact execJp_nextMeetsInv hs nnn
  | jpV0 nnn => exact execJpV0_nextMeetsInv hs nnn
  | ret => exact execRet_nextMeetsInv hs
  | call nnn => exact execCall_nextMeetsInv hs hp nnn
  | ldVxK x => exact execLdVxK_nextMeetsInv hs hp x
  | drw x y n => exact execDrw_nextMeetsInv hs hp x y n
  | ldBVx x => exact execLdBVx_nextMeetsInv hs hp x
  | ldMemVx x => exact execLdMemVx_nextMeetsInv hs hp x
  | ldVxMem x => exact execLdVxMem_nextMeetsInv hs hp x
  | seImm | sneImm | seReg | sneReg | skp | sknp =>
    exact (nextMeetsInv_next _).2 (hs.skipIf hp _)
  | ldImm | addImm | ldReg | rnd | ldVxDt =>
    simp [exec, execLdImm, execAddImm, execLdReg, execRnd, execLdVxDt, hs, hp, Inv.advance]
  | orReg | andReg | xorReg | addReg | subReg | shr | subnReg | shl =>
    simp [exec, execOrReg, execAndReg, execXorReg, execAddReg, execSubReg, execShr, execSubnReg, execShl, hs, hp,
      Inv.advance]
  | cls | ldI | addIVx | ldFVx | ldDtVx | ldStVx =>
    simp [exec, execCls, execLdI, execAddIVx, execLdFVx, execLdDtVx, execLdStVx, hs, hp, Inv.advance]

/-! The operations of R5. -/

theorem step_keeps_inv {s t : State} (hs : Inv s) (ht : step s = .next t) : Inv t := by
  obtain ⟨-, h⟩ | ⟨-, -, h⟩ | ⟨-, -, -, h⟩ | ⟨-, hp, i, -, h⟩ := step_cases s <;> rw [h] at ht
  · cases ht
    exact hs
  · cases ht
  · cases ht
  · exact exec_nextMeetsInv i hs hp t ht

theorem afterOp_cycle_keeps_inv {s : State} (hs : Inv s) : Inv (afterOp .cycle s) := by
  obtain ⟨t, ht, h⟩ | ⟨-, h⟩ := afterOp_cycle s <;> rw [h]
  · exact step_keeps_inv hs ht
  · exact hs

/-- The longest ROM ends with the last byte of memory (R256, R282). -/
theorem afterOp_load_keeps_inv {s : State} (hs : Inv s) (rom : List Byte) : Inv (afterOp (.load rom) s) := by
  rw [afterOp_load]
  split
  case isTrue hfits => exact hs.writeBytes (by omega)
  case isFalse => exact hs

theorem afterOp_setKey_keeps_inv {s : State} (hs : Inv s) (k : Nat) (pressed : Bool) :
    Inv (afterOp (.setKey k pressed) s) := by
  rw [afterOp_setKey]
  split <;> exact hs

/-- Settles O59, operation by operation: a tick and the three reads write no memory, `pc` or stack. -/
theorem everyOperationKeepsTheInvariant : Obligations.EveryOperationKeepsTheInvariant := by
  intro op s hs
  cases op with
  | cycle => exact afterOp_cycle_keeps_inv hs
  | load rom => exact afterOp_load_keeps_inv hs rom
  | setKey k pressed => exact afterOp_setKey_keeps_inv hs k pressed
  | tickTimers | framebuffer | consumedBeep | takeRedraw => exact hs

end Sys2Proof
end

section
/-! Which pieces of state an instruction may write, once for all instructions: what it leaves unchanged follows from its
list. -/

namespace Sys2Proof

open Sys2Proof.Machine

/-! The pieces of state one by one. -/

/-- `t` agrees with `s` on one piece of state. -/
def Part.Same (s t : State) : Part → Prop
  | .mem => ∀ a, t.mem.read a = s.mem.read a
  | .v => ∀ r, t.reg r = s.reg r
  | .i => t.i = s.i
  | .pc => t.pc = s.pc
  | .sp => t.sp = s.sp
  | .stack => t.stack = s.stack
  | .dt => t.dt = s.dt
  | .st => t.st = s.st
  | .keys => t.keys = s.keys
  | .fb => t.fb = s.fb
  | .redraw => t.redraw = s.redraw
  | .beep => t.beep = s.beep
  | .loaded => t.loaded = s.loaded
  | .rng => t.rng = s.rng

theorem unchangedExcept_iff {ps : List Part} {s t : State} : UnchangedExcept ps s t ↔ ∀ p ∉ ps, p.Same s t := by
  constructor
  · rintro ⟨hmem, hv, hi, hpc, hsp, hstack, hdt, hst, hkeys, hfb, hredraw, hbeep, hloaded, hrng⟩ p
    cases p <;> assumption
  · intro h
    exact ⟨h .mem, h .v, h .i, h .pc, h .sp, h .stack, h .dt, h .st, h .keys, h .fb, h .redraw, h .beep, h .loaded,
      h .rng⟩

theorem UnchangedExcept.same {ps : List Part} {s t : State} (h : UnchangedExcept ps s t) (p : Part) (hp : p ∉ ps) :
    p.Same s t :=
  unchangedExcept_iff.1 h p hp

theorem Part.Same.refl (s : State) (p : Part) : p.Same s s := by
  cases p <;> simp [Part.Same]

theorem Part.Same.trans {s t u : State} {p : Part} (h : p.Same s t) (h' : p.Same t u) : p.Same s u := by
  cases p <;> simp_all [Part.Same]

theorem UnchangedExcept.refl (ps : List Part) (s : State) : UnchangedExcept ps s s :=
  unchangedExcept_iff.2 fun p _ => Part.Same.refl s p

theorem UnchangedExcept.trans {ps : List Part} {s t u : State} (h : UnchangedExcept ps s t)
    (h' : UnchangedExcept ps t u) : UnchangedExcept ps s u :=
  unchangedExcept_iff.2 fun p hp => (h.same p hp).trans (h'.same p hp)

/-! How an instruction ends. -/

/-- If the instruction completes, its next state satisfies `P`. -/
def NextMeets (P : State → Prop) (r : Result) : Prop := ∀ t, r = .next t → P t

theorem NextMeets.next {P : State → Prop} {t : State} (h : P t) : NextMeets P (.next t) := by
  simpa [NextMeets] using h

theorem NextMeets.fault (P : State → Prop) (f : Fault) : NextMeets P (.fault f) := by
  simp [NextMeets]

/-! What each instruction writes. -/

/-- The pieces of state an instruction may write (R34 to R44, R75, R125). -/
def mayWrite : Instr → List Part
  | .jp _ | .jpV0 _ | .seImm _ _ | .sneImm _ _ | .seReg _ _ | .sneReg _ _ | .skp _ | .sknp _ => [.pc]
  | .call _ => [.sp, .stack, .pc]
  | .ret => [.sp, .pc]
  | .ldImm _ _ | .addImm _ _ | .ldReg _ _ | .orReg _ _ | .andReg _ _ | .xorReg _ _ | .addReg _ _ => [.v, .pc]
  | .subReg _ _ | .shr _ _ | .subnReg _ _ | .shl _ _ | .ldVxDt _ | .ldVxK _ | .ldVxMem _ => [.v, .pc]
  | .rnd _ _ => [.v, .rng, .pc]
  | .cls => [.fb, .redraw, .pc]
  | .drw _ _ _ => [.v, .fb, .redraw, .pc]
  | .ldI _ | .addIVx _ | .ldFVx _ => [.i, .pc]
  | .ldBVx _ | .ldMemVx _ => [.mem, .pc]
  | .ldDtVx _ => [.dt, .pc]
  | .ldStVx _ => [.st, .pc]

theorem unchangedExcept_skipIf (s : State) (c : Bool) : UnchangedExcept [.pc] s (s.skipIf c) := by
  simp [UnchangedExcept]

theorem unchangedExcept_setReg_advance (s : State) (x : Reg) (b : Byte) :
    UnchangedExcept [.v, .pc] s (s.setReg x b).advance := by
  simp [UnchangedExcept]

theorem unchangedExcept_setRegFlag_advance (s : State) (x : Reg) (b f : Byte) :
    UnchangedExcept [.v, .pc] s (s.setRegFlag x b f).advance := by
  simp [UnchangedExcept]

theorem unchangedExcept_setI_advance (s : State) (w : Word) : UnchangedExcept [.i, .pc] s (s.setI w).advance := by
  simp [UnchangedExcept]

theorem unchangedExcept_setMem_advance (s : State) (m : Memory) :
    UnchangedExcept [.mem, .pc] s (s.setMem m).advance := by
  simp [UnchangedExcept]

/-! RET, CALL and FX0A in each of their two cases. -/

theorem exec_ret_empty {s : State} (h : s.sp.val = 0) : exec .ret s = .fault .stackUnderflow := by
  rw [exec, execRet_eq, dif_pos h]

theorem exec_ret_occupied {s : State} (h : s.sp.val ≠ 0) :
    exec .ret s =
      .next { s with sp := ⟨s.sp.val - 1, by omega⟩, pc := s.stack[s.sp.val - 1]'(by omega) } := by
  rw [exec, execRet_eq, dif_neg h]

theorem exec_call_room {s : State} {nnn : Addr} (h : s.sp.val < 16) :
    exec (.call nnn) s =
      .next { s with
        stack := s.stack.set s.sp.val (s.pc + 2#16) h
        sp := ⟨s.sp.val + 1, by omega⟩
        pc := zext16 nnn } := by
  rw [exec, execCall_eq, dif_pos h]

theorem exec_call_full {s : State} {nnn : Addr} (h : ¬s.sp.val < 16) :
    exec (.call nnn) s = .fault .stackOverflow := by
  rw [exec, execCall_eq, dif_neg h]

theorem exec_ldVxK_up {s : State} (h : s.lowestKey = none) (x : Reg) : exec (.ldVxK x) s = .next s := by
  rw [exec, execLdVxK, h]

theorem exec_ldVxK_down {s : State} {k : Fin 16} (h : s.lowestKey = some k) (x : Reg) :
    exec (.ldVxK x) s = .next (s.setReg x (BitVec.ofNat 8 k.val)).advance := by
  rw [exec, execLdVxK, h]

/-! The instructions that can fault or wait, each by what it comes to. -/

theorem execRet_unchangedExcept (s : State) : NextMeets (UnchangedExcept [.sp, .pc] s) (execRet s) := by
  rw [execRet_eq]
  split
  case isTrue => exact .fault _ _
  case isFalse => exact .next (by simp [UnchangedExcept, State.reg])

theorem execCall_unchangedExcept (nnn : Addr) (s : State) :
    NextMeets (UnchangedExcept [.sp, .stack, .pc] s) (execCall nnn s) := by
  rw [execCall_eq]
  split
  case isTrue => exact .next (by simp [UnchangedExcept, State.reg])
  case isFalse => exact .fault _ _

theorem exec_ldVxK_unchangedExcept (x : Reg) (s : State) :
    NextMeets (UnchangedExcept [.v, .pc] s) (exec (.ldVxK x) s) := by
  cases hkey : s.lowestKey with
  | none =>
    rw [exec_ldVxK_up hkey]
    exact .next (.refl _ s)
  | some k =>
    rw [exec_ldVxK_down hkey]
    exact .next (unchangedExcept_setReg_advance s x _)

theorem execDrw_unchangedExcept (x y : Reg) (n : Nibble) (s : State) :
    NextMeets (UnchangedExcept [.v, .fb, .redraw, .pc] s) (execDrw x y n s) := by
  rw [execDrw_eq]
  split
  case isTrue => exact .next (by simp [UnchangedExcept])
  case isFalse => exact .fault _ _

theorem execLdBVx_unchangedExcept (x : Reg) (s : State) :
    NextMeets (UnchangedExcept [.mem, .pc] s) (execLdBVx x s) := by
  rw [execLdBVx_eq]
  split
  case isTrue => exact .next (unchangedExcept_setMem_advance s _)
  case isFalse => exact .fault _ _

theorem execLdMemVx_unchangedExcept (x : Reg) (s : State) :
    NextMeets (UnchangedExcept [.mem, .pc] s) (execLdMemVx x s) := by
  rw [execLdMemVx_eq]
  split
  case isTrue => exact .next (unchangedExcept_setMem_advance s _)
  case isFalse => exact .fault _ _

theorem execLdVxMem_unchangedExcept (x : Reg) (s : State) :
    NextMeets (UnchangedExcept [.v, .pc] s) (execLdVxMem x s) := by
  rw [execLdVxMem_eq]
  split
  case isTrue => exact .next (by simp [UnchangedExcept])
  case isFalse => exact .fault _ _

theorem exec_nextMeets_unchangedExcept (i : Instr) (s : State) :
    NextMeets (UnchangedExcept (mayWrite i) s) (exec i s) := by
  cases i with
  | ret => exact execRet_unchangedExcept s
  | call nnn => exact execCall_unchangedExcept nnn s
  | ldVxK x => exact exec_ldVxK_unchangedExcept x s
  | drw x y n => exact execDrw_unchangedExcept x y n s
  | ldBVx x => exact execLdBVx_unchangedExcept x s
  | ldMemVx x => exact execLdMemVx_unchangedExcept x s
  | ldVxMem x => exact execLdVxMem_unchangedExcept x s
  | seImm | sneImm | seReg | sneReg | skp | sknp => exact .next (unchangedExcept_skipIf s _)
  | ldImm | addImm | ldReg | ldVxDt => exact .next (unchangedExcept_setReg_advance s _ _)
  | orReg | andReg | xorReg | addReg | subReg | shr | subnReg | shl =>
    exact .next (unchangedExcept_setRegFlag_advance s _ _ _)
  | ldI | addIVx | ldFVx => exact .next (unchangedExcept_setI_advance s _)
  | cls | rnd | jp | jpV0 | ldDtVx | ldStVx => exact .next (by simp [UnchangedExcept, mayWrite])

/-- An instruction that completes leaves every piece of state outside its list as it was. -/
theorem exec_unchangedExcept {i : Instr} {s t : State} (h : exec i s = .next t) :
    UnchangedExcept (mayWrite i) s t :=
  exec_nextMeets_unchangedExcept i s t h

/-- A piece of state that an instruction changed is on its list. -/
theorem mem_mayWrite_of_changed {i : Instr} {s t : State} (h : exec i s = .next t) {p : Part} (hp : ¬p.Same s t) :
    p ∈ mayWrite i :=
  Decidable.byContradiction fun hmem => hp ((exec_unchangedExcept h).same p hmem)

/-! The lists read the other way: the writers of each piece. -/

theorem i_mem_mayWrite {i : Instr} (h : .i ∈ mayWrite i) :
    (∃ nnn, i = .ldI nnn) ∨ (∃ x, i = .addIVx x) ∨ ∃ x, i = .ldFVx x := by
  cases i <;> simp [mayWrite] at h ⊢

theorem sp_mem_mayWrite {i : Instr} (h : .sp ∈ mayWrite i) : (∃ nnn, i = .call nnn) ∨ i = .ret := by
  cases i <;> simp [mayWrite] at h ⊢

theorem stack_mem_mayWrite {i : Instr} (h : .stack ∈ mayWrite i) : ∃ nnn, i = .call nnn := by
  cases i <;> simp [mayWrite] at h ⊢

theorem dt_mem_mayWrite {i : Instr} (h : .dt ∈ mayWrite i) : ∃ x, i = .ldDtVx x := by
  cases i <;> simp [mayWrite] at h ⊢

theorem st_mem_mayWrite {i : Instr} (h : .st ∈ mayWrite i) : ∃ x, i = .ldStVx x := by
  cases i <;> simp [mayWrite] at h ⊢

theorem rng_mem_mayWrite {i : Instr} (h : .rng ∈ mayWrite i) : ∃ x nn, i = .rnd x nn := by
  cases i <;> simp [mayWrite] at h ⊢

theorem fb_mem_mayWrite {i : Instr} (h : .fb ∈ mayWrite i) : i = .cls ∨ ∃ x y n, i = .drw x y n := by
  cases i <;> simp [mayWrite] at h ⊢

theorem redraw_mem_mayWrite {i : Instr} (h : .redraw ∈ mayWrite i) : i = .cls ∨ ∃ x y n, i = .drw x y n := by
  cases i <;> simp [mayWrite] at h ⊢

theorem mem_mem_mayWrite {i : Instr} (h : .mem ∈ mayWrite i) : (∃ x, i = .ldBVx x) ∨ ∃ x, i = .ldMemVx x := by
  cases i <;> simp [mayWrite] at h ⊢

theorem keys_notMem_mayWrite (i : Instr) : .keys ∉ mayWrite i := by
  cases i <;> simp [mayWrite]

theorem beep_notMem_mayWrite (i : Instr) : .beep ∉ mayWrite i := by
  cases i <;> simp [mayWrite]

theorem loaded_notMem_mayWrite (i : Instr) : .loaded ∉ mayWrite i := by
  cases i <;> simp [mayWrite]

/-- Settles O49: what changed is on the instruction's list, and each list is short. -/
theorem stateChangesOnlyByItsWriters : Obligations.StateChangesOnlyByItsWriters := by
  intro i s t h
  have frame := exec_unchangedExcept h
  exact ⟨fun hi => i_mem_mayWrite (mem_mayWrite_of_changed h hi),
    fun hsp => sp_mem_mayWrite (mem_mayWrite_of_changed h hsp),
    fun hstack => stack_mem_mayWrite (mem_mayWrite_of_changed h hstack),
    fun hdt => dt_mem_mayWrite (mem_mayWrite_of_changed h hdt),
    fun hst => st_mem_mayWrite (mem_mayWrite_of_changed h hst),
    fun hrng => rng_mem_mayWrite (mem_mayWrite_of_changed h hrng),
    fun hredraw => redraw_mem_mayWrite (mem_mayWrite_of_changed h hredraw),
    fun a hmem => mem_mem_mayWrite (mem_mayWrite_of_changed h fun hsame => hmem (hsame a)),
    frame.same .keys (keys_notMem_mayWrite i), frame.same .beep (beep_notMem_mayWrite i),
    frame.same .loaded (loaded_notMem_mayWrite i)⟩

/-- Settles O40: an instruction writes the display only if it is CLS or DRW, and no other operation names it. -/
theorem onlyClsAndDrwChangeTheDisplay : Obligations.OnlyClsAndDrwChangeTheDisplay := by
  refine ⟨fun i s t h hfb => fb_mem_mayWrite (mem_mayWrite_of_changed h hfb), fun op s hop => ?_, fun s => rfl⟩
  cases op with
  | cycle => exact absurd rfl hop
  | load rom => rw [afterOp_load]; split <;> rfl
  | setKey k pressed => rw [afterOp_setKey]; split <;> rfl
  | tickTimers | framebuffer | consumedBeep | takeRedraw => rfl

theorem step_loaded {s t : State} (ht : step s = .next t) : t.loaded = s.loaded := by
  obtain ⟨-, h⟩ | ⟨-, -, h⟩ | ⟨-, -, -, h⟩ | ⟨-, -, i, -, h⟩ := step_cases s <;> rw [h] at ht
  · cases ht
    rfl
  · cases ht
  · cases ht
  · exact (exec_unchangedExcept ht).same .loaded (loaded_notMem_mayWrite i)

theorem afterOp_cycle_loaded (s : State) : (afterOp .cycle s).loaded = s.loaded := by
  obtain ⟨t, ht, h⟩ | ⟨-, h⟩ := afterOp_cycle s <;> rw [h]
  exact step_loaded ht

/-- Only `load` writes `loaded` (R43). -/
theorem afterOp_loaded {op : HostOp} (hop : ∀ rom, op ≠ .load rom) (s : State) :
    (afterOp op s).loaded = s.loaded := by
  cases op with
  | cycle => exact afterOp_cycle_loaded s
  | load rom => exact absurd rfl (hop rom)
  | setKey k pressed => rw [afterOp_setKey]; split <;> rfl
  | tickTimers | framebuffer | consumedBeep | takeRedraw => rfl

theorem load_sets_loaded {s t : State} {rom : List Byte} (h : load rom s = .next t) : t.loaded = true := by
  rw [load_eq] at h
  split at h
  · cases h
  · split at h <;> cases h
    rfl

/-- Settles O9. A `load` of a loaded core has no step (D20), so it leaves the bit set too. -/
theorem loadedIsSetOnceAndGatesTheCycle : Obligations.LoadedIsSetOnceAndGatesTheCycle := by
  refine ⟨fun _ => rfl, step_unloaded, fun s t rom => load_sets_loaded, fun s op hs => ?_,
    fun s op hop => afterOp_loaded hop s⟩
  cases op with
  | load rom => rw [afterOp_load, if_neg (by simp [hs]), hs]
  | cycle | setKey | tickTimers | framebuffer | consumedBeep | takeRedraw => rw [afterOp_loaded (by simp), hs]

end Sys2Proof
end

section
/-! The invariant at construction, in every cycle and in every reachable state. -/

namespace Sys2Proof

open Sys2Proof.Machine

/-- Settles O58: of the four cases of a cycle two answer a next state, the no-op and an instruction at a legal `pc`. -/
theorem everyStepKeepsTheInvariant : Obligations.EveryStepKeepsTheInvariant :=
  fun _ _ hs ht => step_keeps_inv hs ht

theorem inv_construct (seed : Nat) : Inv (State.construct seed) :=
  ⟨Memory.wf_nil, (by decide : 0x200 ≤ 0x10FE), fun _ hj => absurd hj (Nat.not_lt_zero _)⟩

/-- Settles O57: nothing is written yet, `pc` is 0x200 and the stack is empty. -/
theorem constructionMeetsTheInvariant : Obligations.ConstructionMeetsTheInvariant :=
  ⟨inv_construct, inv_construct Config.seed⟩

theorem Reachable.inv {s : State} (hs : Reachable s) : Inv s := by
  induction hs with
  | construct seed => exact inv_construct seed
  | after op s _ ih => exact everyOperationKeepsTheInvariant op s ih

/-- RET goes to the top entry, which is occupied (R140). -/
theorem exec_ret_pc {s t : State} (h : exec .ret s = .next t) :
    ∃ j : Fin 16, s.sp.val = j.val + 1 ∧ t.pc = s.stack[j] := by
  have hlt := s.sp.isLt
  by_cases hsp : s.sp.val = 0
  · rw [exec_ret_empty hsp] at h
    cases h
  · rw [exec_ret_occupied hsp] at h
    cases h
    exact ⟨⟨s.sp.val - 1, by omega⟩, (Nat.succ_pred_eq_of_ne_zero hsp).symm, rfl⟩

/-- Settles O60, by the invariant of every reachable state; RET takes one of the entries it bounds. -/
theorem reachablePcAndStackAreBounded : Obligations.ReachablePcAndStackAreBounded := by
  intro s hs
  obtain ⟨-, hpc, hstack⟩ := hs.inv
  refine ⟨hpc, hstack, fun t ht => ?_⟩
  obtain ⟨j, hsp, hret⟩ := exec_ret_pc ht
  rw [hret]
  exact hstack j (by omega)

end Sys2Proof
end

section
/-! Which registers an instruction may change (R31, R32). -/

namespace Sys2Proof

open Sys2Proof.Machine

/-- From `s` to `t` only the destinations of `i` and its flag changed, and the flag is 0 or 1. -/
def RegistersAsNamed (i : Instr) (s t : State) : Prop :=
  (∀ r, t.reg r ≠ s.reg r → namesDestination i r ∨ (writesFlag i ∧ r = VF)) ∧
    (writesFlag i → t.reg VF = 0x00#8 ∨ t.reg VF = 0x01#8)

theorem registersAsNamed_of_same {i : Instr} {s t : State} (hflag : ¬writesFlag i) (h : ∀ r, t.reg r = s.reg r) :
    RegistersAsNamed i s t :=
  ⟨fun r hr => absurd (h r) hr, fun hi => absurd hi hflag⟩

/-- The instructions that write no register at all. -/
theorem registersAsNamed_of_notMem {i : Instr} {s t : State} (hflag : ¬writesFlag i) (hv : .v ∉ mayWrite i)
    (ht : exec i s = .next t) : RegistersAsNamed i s t :=
  registersAsNamed_of_same hflag ((exec_unchangedExcept ht).same .v hv)

theorem registersAsNamed_setReg {i : Instr} {x : Reg} (hflag : ¬writesFlag i) (hdest : namesDestination i x)
    (s : State) (b : Byte) : RegistersAsNamed i s (s.setReg x b).advance := by
  refine ⟨fun r hr => .inl ?_, fun hi => absurd hi hflag⟩
  have hrx : r = x := by
    by_contra hne
    exact hr (by simp [State.reg_setReg, hne])
  rwa [hrx]

/-- The flag is written last (R173), so VF holds it even where VF is the destination. -/
theorem registersAsNamed_setRegFlag {i : Instr} {x : Reg} {f : Byte} (hflag : writesFlag i)
    (hdest : namesDestination i x) (hf : f.toNat < 2) (s : State) (b : Byte) :
    RegistersAsNamed i s (s.setRegFlag x b f).advance := by
  refine ⟨fun r hr => ?_, fun _ => by simpa [State.reg_setRegFlag] using byte_zero_or_one hf⟩
  by_cases hVF : r = VF
  · exact .inr ⟨hflag, hVF⟩
  · have hrx : r = x := by
      by_contra hne
      exact hr (by simp [State.reg_setRegFlag, hVF, hne])
    exact .inl (by rwa [hrx])

theorem toNat_flagByte_lt (c : Bool) : (flagByte c).toNat < 2 := by
  cases c <;> decide

theorem toNat_shiftedOutRight_lt (a : Byte) : (shiftedOutRight a).toNat < 2 := by
  rw [toNat_shiftedOutRight]; omega

theorem toNat_shiftedOutLeft_lt (a : Byte) : (shiftedOutLeft a).toNat < 2 := by
  have := a.isLt
  rw [toNat_shiftedOutLeft]; omega

/-- DXYN names no destination: of the registers it writes VF alone, as its flag. -/
theorem execDrw_registersAsNamed (x y : Reg) (n : Nibble) (s : State) :
    NextMeets (RegistersAsNamed (.drw x y n) s) (execDrw x y n s) := by
  rw [execDrw_eq]
  split
  case isTrue =>
    refine .next ⟨fun r hr => .inr ⟨trivial, ?_⟩, fun _ => ?_⟩
    · by_contra hne
      exact hr (by simp [State.reg_setReg, hne])
    · simpa using byte_zero_or_one (toNat_flagByte_lt _)
  case isFalse => exact .fault _ _

/-- FX65 writes as many registers as it reads bytes: V[0] to V[x]. -/
theorem execLdVxMem_registersAsNamed (x : Reg) (s : State) :
    NextMeets (RegistersAsNamed (.ldVxMem x) s) (execLdVxMem x s) := by
  rw [execLdVxMem_eq]
  split
  case isTrue =>
    refine .next ⟨fun r hr => .inl ?_, False.elim⟩
    by_contra hgt
    have hlen : (s.mem.readBytes s.i.toNat (x.toNat + 1)).length ≤ r.toNat := by
      rw [Memory.length_readBytes]
      exact Nat.lt_of_not_le hgt
    exact hr (by rw [State.reg_advance, State.reg_setRegs, List.getD_eq_default _ _ hlen])
  case isFalse => exact .fault _ _

theorem exec_ldVxK_registersAsNamed (x : Reg) (s : State) :
    NextMeets (RegistersAsNamed (.ldVxK x) s) (exec (.ldVxK x) s) := by
  cases hkey : s.lowestKey with
  | none =>
    rw [exec_ldVxK_up hkey]
    exact .next (registersAsNamed_of_same (by simp [writesFlag]) fun _ => rfl)
  | some k =>
    rw [exec_ldVxK_down hkey]
    exact .next (registersAsNamed_setReg (by simp [writesFlag]) (by simp [namesDestination]) s _)

theorem exec_registersAsNamed (i : Instr) (s : State) : NextMeets (RegistersAsNamed i s) (exec i s) := by
  cases i with
  | drw x y n => exact execDrw_registersAsNamed x y n s
  | ldVxMem x => exact execLdVxMem_registersAsNamed x s
  | ldVxK x => exact exec_ldVxK_registersAsNamed x s
  | ldImm | addImm | ldReg | ldVxDt =>
    exact .next (registersAsNamed_setReg (by simp [writesFlag]) (by simp [namesDestination]) s _)
  | rnd =>
    exact .next (registersAsNamed_setReg (by simp [writesFlag]) (by simp [namesDestination]) (s.setRng _) _)
  | orReg | andReg | xorReg | addReg | subReg | subnReg =>
    exact .next (registersAsNamed_setRegFlag (by simp [writesFlag]) (by simp [namesDestination])
      (toNat_flagByte_lt _) s _)
  | shr =>
    exact .next (registersAsNamed_setRegFlag (by simp [writesFlag]) (by simp [namesDestination])
      (toNat_shiftedOutRight_lt _) s _)
  | shl =>
    exact .next (registersAsNamed_setRegFlag (by simp [writesFlag]) (by simp [namesDestination])
      (toNat_shiftedOutLeft_lt _) s _)
  | cls | ret | jp | call | seImm | sneImm | seReg | sneReg | ldI | jpV0 | skp | sknp | ldDtVx | ldStVx | addIVx
  | ldFVx | ldBVx | ldMemVx =>
    exact fun t ht => registersAsNamed_of_notMem (by simp [writesFlag]) (by simp [mayWrite]) ht

/-- Settles O48, instruction by instruction: by the registers each one writes. -/
theorem registersChangeOnlyAsDestinationOrFlag : Obligations.RegistersChangeOnlyAsDestinationOrFlag :=
  fun i s t ht => exec_registersAsNamed i s t ht

end Sys2Proof
end

section
/-! ST and the two latches are written, never read, by an instruction (R37, R41, R42, R265). -/

namespace Sys2Proof

open Sys2Proof.Machine

/-- `r'` ends as `r` does: in a state that differs at most in ST, `beep` and `redraw`, or in the same fault. -/
def SameButSound (r r' : Result) : Prop :=
  (∀ t, r = .next t → ∃ u, r' = .next u ∧ UnchangedExcept [.st, .beep, .redraw] t u) ∧
    ∀ f, r = .fault f → r' = .fault f

theorem sameButSound_next {t u : State} (h : UnchangedExcept [.st, .beep, .redraw] t u) :
    SameButSound (.next t) (.next u) := by
  simpa [SameButSound] using h

theorem sameButSound_fault (f : Fault) : SameButSound (.fault f) (.fault f) := by
  simp [SameButSound]

/-- Two runs that take the same way at a test. -/
theorem sameButSound_ite {c : Prop} [Decidable c] {a b a' b' : Result} (ht : SameButSound a a')
    (hf : SameButSound b b') : SameButSound (if c then a else b) (if c then a' else b') := by
  split
  case isTrue => exact ht
  case isFalse => exact hf

/-- The state with other values in ST and the latches. -/
def withSound (s : State) (st : Byte) (beep redraw : Bool) : State :=
  { s with st := st, beep := beep, redraw := redraw }

section
variable (s : State) (st : Byte) (beep redraw : Bool)

@[simp] theorem withSound_mem : (withSound s st beep redraw).mem = s.mem := rfl
@[simp] theorem withSound_v : (withSound s st beep redraw).v = s.v := rfl
@[simp] theorem withSound_i : (withSound s st beep redraw).i = s.i := rfl
@[simp] theorem withSound_pc : (withSound s st beep redraw).pc = s.pc := rfl
@[simp] theorem withSound_sp : (withSound s st beep redraw).sp = s.sp := rfl
@[simp] theorem withSound_stack : (withSound s st beep redraw).stack = s.stack := rfl
@[simp] theorem withSound_dt : (withSound s st beep redraw).dt = s.dt := rfl
@[simp] theorem withSound_keys : (withSound s st beep redraw).keys = s.keys := rfl
@[simp] theorem withSound_fb : (withSound s st beep redraw).fb = s.fb := rfl
@[simp] theorem withSound_loaded : (withSound s st beep redraw).loaded = s.loaded := rfl
@[simp] theorem withSound_rng : (withSound s st beep redraw).rng = s.rng := rfl
@[simp] theorem reg_withSound (r : Reg) : (withSound s st beep redraw).reg r = s.reg r := rfl
@[simp] theorem keyDown_withSound (k : Nibble) : (withSound s st beep redraw).keyDown k = s.keyDown k := rfl
@[simp] theorem regsUpTo_withSound (x : Reg) : (withSound s st beep redraw).regsUpTo x = s.regsUpTo x := rfl

/-- Every instruction takes the same way in the two states and computes from the same operands. -/
theorem exec_sameButSound (i : Instr) : SameButSound (exec i s) (exec i (withSound s st beep redraw)) := by
  cases i with
  | jp | jpV0 | seImm | sneImm | seReg | sneReg | skp | sknp | ldI | addIVx | ldFVx | cls | ldDtVx | ldStVx =>
    exact sameButSound_next (by simp [UnchangedExcept])
  | ldImm | addImm | ldReg | ldVxDt | rnd => exact sameButSound_next (by simp [UnchangedExcept, State.reg_setReg])
  | orReg | andReg | xorReg | addReg | subReg | shr | subnReg | shl =>
    exact sameButSound_next (by simp [UnchangedExcept, State.reg_setRegFlag])
  | ret =>
    by_cases hsp : s.sp.val = 0
    · rw [exec_ret_empty hsp, exec_ret_empty (s := withSound s st beep redraw) hsp]
      exact sameButSound_fault _
    · rw [exec_ret_occupied hsp, exec_ret_occupied (s := withSound s st beep redraw) hsp]
      exact sameButSound_next (by simp [UnchangedExcept, State.reg])
  | call nnn =>
    by_cases hsp : s.sp.val < 16
    · rw [exec_call_room hsp, exec_call_room (s := withSound s st beep redraw) hsp]
      exact sameButSound_next (by simp [UnchangedExcept, State.reg])
    · rw [exec_call_full hsp, exec_call_full (s := withSound s st beep redraw) hsp]
      exact sameButSound_fault _
  | ldVxK x =>
    cases hkey : s.lowestKey with
    | none =>
      rw [exec_ldVxK_up hkey, exec_ldVxK_up (s := withSound s st beep redraw) hkey]
      exact sameButSound_next (by simp [UnchangedExcept])
    | some k =>
      rw [exec_ldVxK_down hkey, exec_ldVxK_down (s := withSound s st beep redraw) hkey]
      exact sameButSound_next (by simp [UnchangedExcept, State.reg_setReg])
  | drw x y n =>
    simp only [exec, execDrw_eq]
    exact sameButSound_ite (sameButSound_next (by simp [UnchangedExcept, State.reg_setReg])) (sameButSound_fault _)
  | ldBVx x =>
    simp only [exec, execLdBVx_eq]
    exact sameButSound_ite (sameButSound_next (by simp [UnchangedExcept])) (sameButSound_fault _)
  | ldMemVx x =>
    simp only [exec, execLdMemVx_eq]
    exact sameButSound_ite (sameButSound_next (by simp [UnchangedExcept])) (sameButSound_fault _)
  | ldVxMem x =>
    simp only [exec, execLdVxMem_eq]
    exact sameButSound_ite (sameButSound_next (by simp [UnchangedExcept, State.reg_setRegs])) (sameButSound_fault _)

end

/-- Settles O51: every instruction ends alike in the two states. -/
theorem noInstructionReadsSoundTimerOrLatches : Obligations.NoInstructionReadsSoundTimerOrLatches := by
  intro i s t st beep redraw
  obtain ⟨hnext, hfault⟩ := exec_sameButSound s st beep redraw i
  exact ⟨hnext t, hfault⟩

end Sys2Proof
end

section
/-! Single instructions: what they write, exactly. -/

namespace Sys2Proof

open Sys2Proof.Machine

/-- Settles O20: the byte drawn is masked bit by bit, and the draw's state is kept. -/
theorem rndDrawsOnceAndMasks : Obligations.RndDrawsOnceAndMasks := by
  intro s x nn
  refine ⟨_, rfl, fun k _ => ?_, rfl, fun r hr => ?_, rfl, exec_unchangedExcept (i := .rnd x nn) rfl⟩
  · rw [State.reg_advance, State.reg_setReg_self, BitVec.getLsbD_and]
  · rw [State.reg_advance, State.reg_setReg, if_neg hr, State.reg_setRng]

/-- Settles O22: by the two cases of a push. -/
theorem callPushesTheReturnAddress : Obligations.CallPushesTheReturnAddress := by
  refine fun s nnn => ⟨fun hsp => ?_, fun hsp => exec_call_full (by omega)⟩
  have hrun := exec_call_room hsp (nnn := nnn)
  refine ⟨_, hrun, rfl, fun j => ?_, toNat_zext16 nnn, exec_unchangedExcept hrun⟩
  by_cases hj : j.val = s.sp.val
  · simp [hj]
  · simp [hj, Ne.symm hj]

/-- Settles O23: by the two cases of a pop. -/
theorem retPopsTheTopEntry : Obligations.RetPopsTheTopEntry := by
  refine fun s => ⟨fun j hj => ?_, exec_ret_empty⟩
  have hrun := exec_ret_occupied (s := s) (by omega)
  exact ⟨_, hrun, by simp [hj], by simp [hj], exec_unchangedExcept hrun⟩

/-- Settles O29: the sum is narrowed to sixteen bits, and only I and `pc` are on the instruction's list. -/
theorem addIWrapsAtSixteenBits : Obligations.AddIWrapsAtSixteenBits :=
  fun _ x => ⟨_, rfl, BitVec.toNat_ofNat _ _, rfl, exec_unchangedExcept (i := .addIVx x) rfl⟩

/-- Settles O37: the buffer is replaced whole, and the latch with it. -/
theorem clsClearsEveryCell : Obligations.ClsClearsEveryCell :=
  fun _ => ⟨_, rfl, fun _ => Vector.getElem_replicate _, rfl, rfl, exec_unchangedExcept (i := .cls) rfl⟩

end Sys2Proof
end

section
/-! The other operations of the block: construction, the keypad and the timers. -/

namespace Sys2Proof

open Sys2Proof.Machine

/-- Past the glyph table construction leaves 0x00 (R47). -/
theorem initial_of_le {a : Nat} (ha : 0x050 ≤ a) : Memory.initial a = 0x00#8 := by
  rw [Memory.initial, if_pos (Nat.zero_le a)]
  exact List.getD_eq_default _ _ ha

/-- Settles O52: the glyph bytes are compared with R85's table one by one. -/
theorem constructionGivesTheResetValues : Obligations.ConstructionGivesTheResetValues := by
  intro seed
  refine ⟨fun r => Vector.getElem_replicate _, rfl, rfl, rfl, fun j => Vector.getElem_replicate _, rfl, rfl,
    fun k => Vector.getElem_replicate _, fun j => Vector.getElem_replicate _, rfl, rfl, rfl, rfl,
    fun a ha => initial_of_le ha, ?_⟩
  show ((List.range 80).map fun a => (Memory.initial a).toNat) = _
  decide

/-- Settles O54: by the one test on the key number. -/
theorem setKeyWritesOneKey : Obligations.SetKeyWritesOneKey := by
  intro s pressed
  refine ⟨fun k => ⟨_, dif_pos k.isLt, fun j => ?_, by simp [UnchangedExcept, State.reg]⟩,
    fun k hk => dif_neg (by omega)⟩
  by_cases hj : j = k
  · simp [hj]
  · have hne : k.val ≠ j.val := fun e => hj (Fin.ext e.symm)
    simp [hj, hne]

/-- The other keys up, the key pressed is the lowest one down. -/
theorem lowestKey_press {s : State} (hup : ∀ k, s.keyDown k = false) (k : Fin 16) :
    State.lowestKey { s with keys := s.keys.set k.val true k.isLt } = some k := by
  refine (State.lowestKey_eq_some _ k).2 ⟨by simp, fun j hj => ?_⟩
  have hne : k.val ≠ j.val := by omega
  have hjup := hup (BitVec.ofNat 4 j.val)
  simpa [hne, State.keyDown, Nat.mod_eq_of_lt j.isLt] using hjup

/-- Settles O44: the cycle runs FX0A before and after the key is pressed, `pc` and memory being the same. -/
theorem awaitingKeyEndsWhenAKeyIsPressed : Obligations.AwaitingKeyEndsWhenAKeyIsPressed := by
  rintro s ⟨hloaded, hpc, ⟨x, hword⟩, hup⟩
  constructor
  · rw [step_runs s _ hloaded hpc hword]
    exact exec_ldVxK_up ((State.lowestKey_eq_none s).2 hup) x
  · intro k
    have hstep := step_runs { s with keys := s.keys.set k.val true k.isLt } _ hloaded hpc hword
    have hreg : (BitVec.ofNat 8 k.val).toNat = k.val := Nat.mod_eq_of_lt (by omega)
    rw [afterOp_setKey, dif_pos k.isLt]
    exact ⟨x, _, hstep.trans (exec_ldVxK_down (lowestKey_press hup k) x), by simpa using hreg, rfl, hword⟩

/-- One tick sets `beep` exactly at the sound timer's step from 1 to 0 (R263). -/
theorem beep_tickTimers (s : State) : (tickTimers s).beep = true ↔ s.beep = true ∨ s.st.toNat = 1 := by
  simp only [tickTimers]
  split <;> simp [*]

theorem unchangedExcept_tickTimers (s : State) : UnchangedExcept [.dt, .st, .beep] s (tickTimers s) := by
  simp [UnchangedExcept, tickTimers, State.reg]

/-- Settles O47, by induction on the number of ticks. -/
theorem ticksCountDownAndBeepOnce : Obligations.TicksCountDownAndBeepOnce := by
  intro n s
  induction n with
  | zero => exact ⟨rfl, rfl, by simp; omega, .refl _ s⟩
  | succ n ih =>
    obtain ⟨hdt, hst, hbeep, hrest⟩ := ih
    obtain ⟨hdt', hst'⟩ := toNat_tickTimers (tickTimers^[n] s)
    rw [Function.iterate_succ_apply']
    refine ⟨by omega, by omega, ?_, hrest.trans (unchangedExcept_tickTimers _)⟩
    rw [beep_tickTimers, hbeep, hst, or_assoc]
    exact or_congr_right (by omega)

end Sys2Proof
end

section
/-! How an instruction ends, once for all instructions: in the fault of its own one condition, or in a next state. -/

namespace Sys2Proof

open Sys2Proof.Machine

/-! The condition of each instruction's fault (R250). -/

theorem raisesFault_ret {s : State} {f : Fault} :
    raisesFault .ret s f ↔ s.sp.val = 0 ∧ f = .stackUnderflow := by
  simp [raisesFault, accessBytes]

theorem raisesFault_call {nnn : Addr} {s : State} {f : Fault} :
    raisesFault (.call nnn) s f ↔ s.sp.val = 16 ∧ f = .stackOverflow := by
  simp [raisesFault, accessBytes]

/-- Every other instruction has the range fault alone (R75), in the form the instructions test it. -/
theorem raisesFault_iff_range {i : Instr} (hret : i ≠ .ret) (hcall : ∀ nnn, i ≠ .call nnn) {s : State} {f : Fault} :
    raisesFault i s f ↔
      ¬(accessBytes i = 0 ∨ s.i.toNat + accessBytes i ≤ 0x1000) ∧ f = .memoryOutOfRange (max s.i.toNat 0x1000) := by
  have hrange : ¬(accessBytes i = 0 ∨ s.i.toNat + accessBytes i ≤ 0x1000) ↔
      0 < accessBytes i ∧ s.i.toNat + accessBytes i - 1 > 0xFFF := by omega
  simp [raisesFault, hret, hcall, hrange, and_assoc]

/-! The ways an instruction ends. -/

/-- `r` is the fault that `i` raises in `s`, or a next state where it raises none, and no refusal. -/
def EndsByItsCondition (i : Instr) (s : State) (r : Result) : Prop :=
  (∀ f, r = .fault f ↔ raisesFault i s f) ∧ ((∃ t, r = .next t) ↔ ∀ f, ¬raisesFault i s f) ∧ ∀ q, r ≠ .refused q

theorem endsByItsCondition_next {i : Instr} {s : State} (h : ∀ f, ¬raisesFault i s f) (t : State) :
    EndsByItsCondition i s (.next t) := by
  simp [EndsByItsCondition, h]

theorem endsByItsCondition_fault {i : Instr} {s : State} {f : Fault} (h : ∀ g, raisesFault i s g ↔ g = f) :
    EndsByItsCondition i s (.fault f) := by
  simp [EndsByItsCondition, h, eq_comm]

/-- The instructions that access memory from I on complete where the range check passes. -/
theorem endsByItsCondition_range {i : Instr} (hret : i ≠ .ret) (hcall : ∀ nnn, i ≠ .call nnn) {s : State}
    {fits : Prop} [Decidable fits] (hfits : fits ↔ accessBytes i = 0 ∨ s.i.toNat + accessBytes i ≤ 0x1000)
    (t : State) :
    EndsByItsCondition i s (if fits then .next t else .fault (.memoryOutOfRange (max s.i.toNat 0x1000))) := by
  split
  case isTrue h => exact endsByItsCondition_next (by simp [raisesFault_iff_range hret hcall, ← hfits, h]) t
  case isFalse h => exact endsByItsCondition_fault (by simp [raisesFault_iff_range hret hcall, ← hfits, h])

theorem endsByItsCondition_of_no_access {i : Instr} (hret : i ≠ .ret) (hcall : ∀ nnn, i ≠ .call nnn)
    (hi : accessBytes i = 0) (s t : State) : EndsByItsCondition i s (.next t) :=
  endsByItsCondition_next (by simp [raisesFault_iff_range hret hcall, hi]) t

/-! The instructions. -/

theorem exec_ret_endsByItsCondition (s : State) : EndsByItsCondition .ret s (exec .ret s) := by
  by_cases hsp : s.sp.val = 0
  · rw [exec_ret_empty hsp]
    exact endsByItsCondition_fault (by simp [raisesFault_ret, hsp])
  · rw [exec_ret_occupied hsp]
    exact endsByItsCondition_next (by simp [raisesFault_ret, hsp]) _

theorem exec_call_endsByItsCondition (nnn : Addr) (s : State) :
    EndsByItsCondition (.call nnn) s (exec (.call nnn) s) := by
  by_cases hsp : s.sp.val = 16
  · rw [exec_call_full (by omega)]
    exact endsByItsCondition_fault (by simp [raisesFault_call, hsp])
  · rw [exec_call_room (by omega)]
    exact endsByItsCondition_next (by simp [raisesFault_call, hsp]) _

/-- FX0A completes while it waits too (R233). -/
theorem exec_ldVxK_endsByItsCondition (x : Reg) (s : State) :
    EndsByItsCondition (.ldVxK x) s (exec (.ldVxK x) s) := by
  cases hkey : s.lowestKey with
  | none =>
    rw [exec_ldVxK_up hkey]
    exact endsByItsCondition_of_no_access (by simp) (by simp) rfl s _
  | some k =>
    rw [exec_ldVxK_down hkey]
    exact endsByItsCondition_of_no_access (by simp) (by simp) rfl s _

theorem exec_endsByItsCondition (i : Instr) (s : State) : EndsByItsCondition i s (exec i s) := by
  cases i with
  | ret => exact exec_ret_endsByItsCondition s
  | call nnn => exact exec_call_endsByItsCondition nnn s
  | ldVxK x => exact exec_ldVxK_endsByItsCondition x s
  | drw x y n =>
    rw [exec, execDrw_eq]
    exact endsByItsCondition_range (by simp) (by simp) Iff.rfl _
  | ldBVx x =>
    rw [exec, execLdBVx_eq]
    exact endsByItsCondition_range (by simp) (by simp) (by simp [accessBytes]) _
  | ldMemVx x =>
    rw [exec, execLdMemVx_eq]
    exact endsByItsCondition_range (by simp) (by simp) (by simp [accessBytes]) _
  | ldVxMem x =>
    rw [exec, execLdVxMem_eq]
    exact endsByItsCondition_range (by simp) (by simp) (by simp [accessBytes]) _
  | cls | jp | seImm | sneImm | seReg | ldImm | addImm | ldReg | orReg | andReg | xorReg | addReg | subReg | shr
  | subnReg | shl | sneReg | ldI | jpV0 | rnd | skp | sknp | ldVxDt | ldDtVx | ldStVx | addIVx | ldFVx =>
    exact endsByItsCondition_of_no_access (by simp) (by simp) rfl s _

/-- Settles O10, instruction by instruction. -/
theorem instructionsCompleteOrFaultExactly : Obligations.InstructionsCompleteOrFaultExactly :=
  exec_endsByItsCondition

/-- The range fault of whichever instruction accesses bytes from I on (R75, R255). -/
theorem exec_access_past_memory {i : Instr} {s : State} (hi : 0 < accessBytes i)
    (h : s.i.toNat + accessBytes i - 1 > 0xFFF) : exec i s = .fault (.memoryOutOfRange (max s.i.toNat 0x1000)) := by
  obtain ⟨hfault, -, -⟩ := instructionsCompleteOrFaultExactly i s
  exact (hfault _).2 (.inr (.inr ⟨hi, h, rfl⟩))

/-- Settles O34, as the range fault of O10 at each instruction's number of bytes: n, 3 and x + 1. -/
theorem accessPastMemoryFaults : Obligations.AccessPastMemoryFaults :=
  fun _ x y n => ⟨exec_access_past_memory (i := .drw x y n), exec_access_past_memory (i := .ldBVx x) (Nat.succ_pos _),
    fun h => ⟨exec_access_past_memory (i := .ldMemVx x) (Nat.succ_pos _) h,
      exec_access_past_memory (i := .ldVxMem x) (Nat.succ_pos _) h⟩⟩

end Sys2Proof
end

section
/-! Memory as the cycle fetches from it and as `load` fills it. -/

namespace Sys2Proof

open Sys2Proof.Machine

/-- Settles O6: the big-endian word at `pc` is the word the cycle decodes. -/
theorem stepRunsTheDecodedInstruction : Obligations.StepRunsTheDecodedInstruction := by
  intro s i hloaded hlt heven hword
  have hfetch : decodeWord s.fetchWord = .ok i := by
    rwa [State.fetchWord, wordOfBytes, Nat.mul_comm]
  exact step_runs s i hloaded ((pcLegal_iff s.pc).2 ⟨hlt, heven⟩) hfetch

/-! The three cases of `load` (R282, R256). -/

theorem load_fits {s : State} {rom : List Byte} (hs : s.loaded = false) (h : rom.length ≤ 3584) :
    load rom s = .next { s with mem := s.mem.writeBytes 0x200 rom, loaded := true } := by
  rw [load_eq, if_neg (by simp [hs]), if_pos h]

theorem load_too_large {s : State} {rom : List Byte} (hs : s.loaded = false) (h : 3584 < rom.length) :
    load rom s = .fault .romTooLarge := by
  rw [load_eq, if_neg (by simp [hs]), if_neg (by omega)]

theorem load_loaded {s : State} (hs : s.loaded = true) (rom : List Byte) : load rom s = .refused .secondLoad := by
  rw [load_eq, if_pos hs]

/-- Settles O53: what memory reads after the ROM was written, byte by byte. -/
theorem loadPlacesTheRomVerbatim : Obligations.LoadPlacesTheRomVerbatim := by
  intro s rom
  refine ⟨fun hs h => ⟨_, load_fits hs h, rfl, fun k hk => ?_, fun a ha => ?_, by simp [UnchangedExcept, State.reg]⟩,
    fun hs h => ⟨load_too_large hs h, ?_⟩, fun hs => load_loaded hs rom⟩
  · rw [Memory.read_writeBytes, if_pos (by omega), Nat.add_sub_cancel_left]
  · rw [Memory.read_writeBytes, if_neg (by omega)]
  · rw [afterOp_load, if_neg (by omega)]

end Sys2Proof
end

section
/-! Decoding and encoding are each other's inverse (R92, R94, R95): the decoder reads an instruction back from its word, and
a legal word back from its fields. The words of R96, and no others, are rejected. -/

namespace Sys2Proof

open Sys2Proof.Machine

/-! From an instruction to its word and back. -/

theorem decodeWord_encode (i : Instr) : decodeWord (encode i) = .ok i := by
  cases i with
  | cls | ret => rfl
  | jp | call | ldI | jpV0 => simp [encode, decodeWord, fieldF_wordAddr, fieldNNN_wordAddr]
  | seImm x nn | sneImm x nn | ldImm x nn | addImm x nn | rnd x nn =>
    simp [encode, decodeWord, fieldF_wordRegByte, fieldX_wordRegByte, fieldNN_wordRegByte, nn.isLt]
  | drw x y n =>
    simp [encode, decodeWord, fieldF_wordRegReg, fieldX_wordRegReg, fieldY_wordRegReg, fieldN_wordRegReg, n.isLt]
  | seReg | sneReg =>
    simp [encode, decodeWord, fieldF_wordRegReg, fieldX_wordRegReg, fieldY_wordRegReg, fieldN_wordRegReg]
  | ldReg | orReg | andReg | xorReg | addReg | subReg | shr | subnReg | shl =>
    simp [encode, decodeWord, decodeAlu, fieldF_wordRegReg, fieldX_wordRegReg, fieldY_wordRegReg, fieldN_wordRegReg]
  | skp | sknp =>
    simp [encode, decodeWord, decodeKey, fieldF_wordRegByte, fieldX_wordRegByte, fieldNN_wordRegByte]
  | ldVxDt | ldVxK | ldDtVx | ldStVx | addIVx | ldFVx | ldBVx | ldMemVx | ldVxMem =>
    simp [encode, decodeWord, decodeMisc, fieldF_wordRegByte, fieldX_wordRegByte, fieldNN_wordRegByte]

/-- Settles O1: the fields of the word are the instruction's operands, and its bytes are the word. -/
theorem decodeInvertsEncode : Obligations.DecodeInvertsEncode :=
  fun i => ⟨decodeWord_encode i, fun rest => decodeBytes_of_word (encode i) rest i (decodeWord_encode i)⟩

theorem decodeWord_of_eq_encode {w : Word} {i : Instr} (h : w = encode i) : decodeWord w = .ok i := by
  rw [h, decodeWord_encode]

/-- Settles O4: each pattern is the encoding of its instruction, its sum in another order. -/
theorem patternsDecodeToTheirInstruction : Obligations.PatternsDecodeToTheirInstruction := by
  refine ⟨fun x y n => ?_, fun nnn => ⟨?_, ?_, ?_, ?_⟩, fun x nn => ⟨?_, ?_, ?_, ?_, ?_⟩,
    fun x y => ⟨?_, ?_, ?_, ?_, ?_, ?_, ?_, ?_, ?_, ?_, ?_⟩, fun x => ⟨?_, ?_, ?_, ?_, ?_, ?_, ?_, ?_, ?_, ?_, ?_⟩,
    decodeWord_encode .cls, decodeWord_encode .ret⟩ <;>
  exact decodeWord_of_eq_encode (congrArg (BitVec.ofNat 16) (by omega))

/-- Settles O5: ten closed words. -/
theorem sampleWordsDecode : Obligations.SampleWordsDecode := by
  unfold Obligations.SampleWordsDecode
  decide

/-! From a word to its fields and back. -/

theorem fieldF_lt (w : Word) : fieldF w < 16 := by
  have := w.isLt
  rw [fieldF_eq]; omega

theorem wordAddr_fields {f : Nat} {w : Word} (hf : fieldF w = f) : wordAddr f (fieldNNN w) = w := by
  have := fieldF_lt w
  rw [fieldF_eq] at *
  apply BitVec.eq_of_toNat_eq
  rw [toNat_wordAddr _ _ (by omega), toNat_fieldNNN]; omega

theorem wordRegByte_fields {f k : Nat} {w : Word} (hf : fieldF w = f) (hk : (fieldNN w).toNat = k) :
    wordRegByte f (fieldX w) k = w := by
  have := fieldF_lt w
  rw [fieldF_eq] at *
  rw [toNat_fieldNN] at hk
  apply BitVec.eq_of_toNat_eq
  rw [toNat_wordRegByte _ _ _ (by omega) (by omega), toNat_fieldX]; omega

theorem wordRegReg_fields {f k : Nat} {w : Word} (hf : fieldF w = f) (hk : (fieldN w).toNat = k) :
    wordRegReg f (fieldX w) (fieldY w) k = w := by
  have := fieldF_lt w
  rw [fieldF_eq] at *
  rw [toNat_fieldN] at hk
  apply BitVec.eq_of_toNat_eq
  rw [toNat_wordRegReg _ _ _ _ (by omega) (by omega), toNat_fieldX, toNat_fieldY]; omega

/-- The list of R96 by the fields the decoder tests. -/
theorem wordIllegal_eq_fields (w : Word) : wordIllegal w =
    (if fieldF w = 0x0 then !decide (w ∈ [0x00E0#16, 0x00EE#16])
    else if fieldF w = 0x5 ∨ fieldF w = 0x9 then !decide ((fieldN w).toNat = 0x0)
    else if fieldF w = 0x8 then decide ((fieldN w).toNat ∈ [0x8, 0x9, 0xA, 0xB, 0xC, 0xD, 0xF])
    else if fieldF w = 0xE then !decide ((fieldNN w).toNat ∈ [0x9E, 0xA1])
    else if fieldF w = 0xF then
      !decide ((fieldNN w).toNat ∈ [0x07, 0x0A, 0x15, 0x18, 0x1E, 0x29, 0x33, 0x55, 0x65])
    else false) := by
  simp [wordIllegal, fieldF_eq, toNat_fieldN, toNat_fieldNN, ← BitVec.toNat_inj]

/-! What the decoder answers, family by family. -/

/-- `r` rejects `w` with the raw word if `w` is illegal, and else is an instruction that encodes to `w`. -/
def AnswersByLegality (w : Word) (r : Except DecodeReject Instr) : Prop :=
  if wordIllegal w = true then r = .error (.unimplementedOpcode w) else ∃ i, r = .ok i ∧ encode i = w

theorem answersByLegality_ok {w : Word} {i : Instr} (hw : wordIllegal w = false) (hi : encode i = w) :
    AnswersByLegality w (.ok i) := by
  simp [AnswersByLegality, hw, hi]

theorem answersByLegality_error {w : Word} (hw : wordIllegal w = true) :
    AnswersByLegality w (.error (.unimplementedOpcode w)) := by
  simp [AnswersByLegality, hw]

/-- Family 0x0, which has two words. -/
theorem answersByLegality_two_words {w : Word} (hf : fieldF w = 0x0) :
    AnswersByLegality w (if w = 0x00E0#16 then .ok .cls else if w = 0x00EE#16 then .ok .ret
      else .error (.unimplementedOpcode w)) := by
  have hw : wordIllegal w = !decide (w ∈ [0x00E0#16, 0x00EE#16]) := by simp [wordIllegal_eq_fields, hf]
  split
  case isTrue hcls => exact answersByLegality_ok (by rw [hw]; simp [hcls]) hcls.symm
  case isFalse hcls =>
    split
    case isTrue hret => exact answersByLegality_ok (by rw [hw]; simp [hret]) hret.symm
    case isFalse hret => exact answersByLegality_error (by simp [hw, hcls, hret])

/-- Families 0x5 and 0x9, whose low nibble is 0 (D6). -/
theorem answersByLegality_zero_nibble {w : Word} {i : Instr} (hf : fieldF w = 0x5 ∨ fieldF w = 0x9)
    (hi : fieldN w = 0#4 → encode i = w) :
    AnswersByLegality w (if fieldN w = 0#4 then .ok i else .error (.unimplementedOpcode w)) := by
  have hw : wordIllegal w = !decide (fieldN w = 0#4) := by
    have h0 : fieldF w ≠ 0x0 := by omega
    simp [wordIllegal_eq_fields, h0, hf, ← BitVec.toNat_inj]
  split
  case isTrue hn => exact answersByLegality_ok (by simp [hw, hn]) (hi hn)
  case isFalse hn => exact answersByLegality_error (by simp [hw, hn])

theorem decodeAlu_answersByLegality {w : Word} (hf : fieldF w = 0x8) : AnswersByLegality w (decodeAlu w) := by
  unfold decodeAlu
  split
  case h_10 =>
    have := (fieldN w).isLt
    exact answersByLegality_error (by simp [wordIllegal_eq_fields, hf]; grind)
  all_goals exact answersByLegality_ok (by simp [wordIllegal_eq_fields, *]) (wordRegReg_fields hf ‹_›)

theorem decodeKey_answersByLegality {w : Word} (hf : fieldF w = 0xE) : AnswersByLegality w (decodeKey w) := by
  unfold decodeKey
  split
  case h_3 => exact answersByLegality_error (by simp_all [wordIllegal_eq_fields])
  all_goals exact answersByLegality_ok (by simp [wordIllegal_eq_fields, *]) (wordRegByte_fields hf ‹_›)

theorem decodeMisc_answersByLegality {w : Word} (hf : fieldF w = 0xF) : AnswersByLegality w (decodeMisc w) := by
  unfold decodeMisc
  split
  case h_10 => exact answersByLegality_error (by simp_all [wordIllegal_eq_fields])
  all_goals exact answersByLegality_ok (by simp [wordIllegal_eq_fields, *]) (wordRegByte_fields hf ‹_›)

theorem decodeWord_answersByLegality (w : Word) : AnswersByLegality w (decodeWord w) := by
  unfold decodeWord
  split
  case h_1 hf => exact answersByLegality_two_words hf
  case h_2 hf | h_3 hf | h_11 hf | h_12 hf =>
    exact answersByLegality_ok (by simp [wordIllegal_eq_fields, hf]) (wordAddr_fields hf)
  case h_4 hf | h_5 hf | h_7 hf | h_8 hf | h_13 hf =>
    exact answersByLegality_ok (by simp [wordIllegal_eq_fields, hf]) (wordRegByte_fields hf rfl)
  case h_6 hf | h_10 hf =>
    exact answersByLegality_zero_nibble (by simp [hf]) fun hn => wordRegReg_fields hf (by simp [hn])
  case h_9 hf => exact decodeAlu_answersByLegality hf
  case h_14 hf => exact answersByLegality_ok (by simp [wordIllegal_eq_fields, hf]) (wordRegReg_fields hf rfl)
  case h_15 hf => exact decodeKey_answersByLegality hf
  case h_16 hf => exact decodeMisc_answersByLegality hf
  case h_17 =>
    have := fieldF_lt w
    grind

/-! The same as equivalences. -/

theorem decodeWord_of_illegal {w : Word} (hw : wordIllegal w = true) :
    decodeWord w = .error (.unimplementedOpcode w) := by
  simpa [AnswersByLegality, hw] using decodeWord_answersByLegality w

theorem exists_decodeWord_of_legal {w : Word} (hw : wordIllegal w = false) :
    ∃ i, decodeWord w = .ok i ∧ encode i = w := by
  simpa [AnswersByLegality, hw] using decodeWord_answersByLegality w

theorem wordIllegal_of_decodeWord_ok {w : Word} {i : Instr} (h : decodeWord w = .ok i) : wordIllegal w = false := by
  by_contra hw
  simp [decodeWord_of_illegal (eq_true_of_ne_false hw)] at h

theorem wordIllegal_of_decodeWord_error {w : Word} {e : DecodeReject} (h : decodeWord w = .error e) :
    wordIllegal w = true := by
  by_contra hw
  obtain ⟨i, hi, -⟩ := exists_decodeWord_of_legal (eq_false_of_ne_true hw)
  simp [hi] at h

/-- Settles O2: of the word that decodes to `i`, a legal one, the decoder kept every field. -/
theorem encodeInvertsDecode : Obligations.EncodeInvertsDecode := by
  intro w i hi
  obtain ⟨j, hj, hw⟩ := exists_decodeWord_of_legal (wordIllegal_of_decodeWord_ok hi)
  obtain rfl : j = i := by simpa [hj] using hi
  exact hw

/-! The rows of the opcode table by the same fields. -/

theorem covers_F000_iff (m : String) (v w : Word) :
    (OpcodeRow.mk m 0xF000#16 v).covers w = true ↔ fieldF w * 4096 = v.toNat := by
  rw [covers_F000, decide_eq_true_eq, fieldF_eq]

theorem covers_F00F_iff (m : String) (v w : Word) :
    (OpcodeRow.mk m 0xF00F#16 v).covers w = true ↔
      fieldF w = v.toNat / 4096 ∧ (fieldN w).toNat = v.toNat % 4096 := by
  rw [covers_F00F, decide_eq_true_eq, fieldF_eq, toNat_fieldN]; omega

theorem covers_F0FF_iff (m : String) (v w : Word) :
    (OpcodeRow.mk m 0xF0FF#16 v).covers w = true ↔
      fieldF w = v.toNat / 4096 ∧ (fieldNN w).toNat = v.toNat % 4096 := by
  rw [covers_F0FF, decide_eq_true_eq, fieldF_eq, toNat_fieldNN]; omega

theorem covers_FFFF_iff (m : String) (v w : Word) :
    (OpcodeRow.mk m 0xFFFF#16 v).covers w = true ↔ fieldF w = v.toNat / 4096 ∧ w = v := by
  rw [covers_FFFF, decide_eq_true_eq, BitVec.toNat_inj, fieldF_eq]
  exact ⟨fun h => ⟨by rw [h], h⟩, And.right⟩

/-- Within each family the table's rows and the list of R96 divide the words; in family 0x8 by the low nibble. -/
theorem wordLegal_iff (w : Word) : wordLegal w = true ↔ wordIllegal w = false := by
  have hf := fieldF_lt w
  have hn : (fieldN w).toNat < 16 := (fieldN w).isLt
  simp only [wordLegal, opcodeTable, opcodeRows0to7, opcodeRows8toD, opcodeRowsEtoF, List.any_append, List.any_cons,
    List.any_nil, Bool.or_eq_true, covers_F000_iff, covers_F00F_iff, covers_F0FF_iff, covers_FFFF_iff,
    wordIllegal_eq_fields]
  generalize fieldF w = f at *
  interval_cases f <;> simp [or_iff_not_imp_left]
  -- Family 0x8 is left: its two lists share out the sixteen low nibbles.
  omega

/-- Settles O3: the table, the list of R96 and the decoder sort the words alike. -/
theorem exactlyTheTableWordsDecode : Obligations.ExactlyTheTableWordsDecode := by
  refine fun w => ⟨?_, ⟨?_, ?_⟩, decodeWord_of_illegal⟩
  · rw [Bool.eq_iff_iff, wordLegal_iff, Bool.not_eq_true']
  · rintro ⟨i, hi⟩
    exact (wordLegal_iff w).2 (wordIllegal_of_decodeWord_ok hi)
  · intro hw
    obtain ⟨i, hi, -⟩ := exists_decodeWord_of_legal ((wordLegal_iff w).1 hw)
    exact ⟨i, hi⟩

/-! The cycle on an illegal word. -/

/-- The fault of R252 is raised before an instruction runs, and by none. -/
theorem exec_ne_unimplementedOpcode (i : Instr) (s : State) (op : Word) :
    exec i s ≠ .fault (.unimplementedOpcode op) := by
  obtain ⟨hfault, -, -⟩ := instructionsCompleteOrFaultExactly i s
  simp [hfault, raisesFault]

theorem step_eq_unimplementedOpcode_iff (s : State) (op : Word) :
    step s = .fault (.unimplementedOpcode op) ↔
      s.loaded = true ∧ pcLegal s.pc = true ∧ op = s.fetchWord ∧ wordIllegal op = true := by
  obtain ⟨hl, hs⟩ | ⟨hl, hp, hs⟩ | ⟨hl, hp, ⟨e, he⟩, hs⟩ | ⟨hl, hp, i, hi, hs⟩ := step_cases s <;> rw [hs]
  · simp [hl]
  · simp [hp]
  · have hw := wordIllegal_of_decodeWord_error he
    constructor
    · rintro ⟨⟩
      exact ⟨hl, hp, rfl, hw⟩
    · rintro ⟨-, -, rfl, -⟩
      rfl
  · have hw := wordIllegal_of_decodeWord_ok hi
    refine iff_of_false (exec_ne_unimplementedOpcode i s op) ?_
    rintro ⟨-, -, rfl, hop⟩
    simp [hw] at hop

/-- Settles O8, by the cases of a cycle. -/
theorem illegalWordFaults : Obligations.IllegalWordFaults := by
  intro s op
  rw [step_eq_unimplementedOpcode_iff, pcLegal_iff, and_assoc]
  rfl

end Sys2Proof
end

section
/-! The shifts of `V[x]` in place (R168, R170). -/

namespace Sys2Proof

open Sys2Proof.Machine

/-! The registers after an instruction that writes a result and then its flag (R173). -/

theorem reg_VF_setRegFlag_advance (s : State) (x : Reg) (b f : Byte) : (s.setRegFlag x b f).advance.reg VF = f := by
  simp [State.reg_setRegFlag]

theorem reg_dest_setRegFlag_advance {x : Reg} (hx : x ≠ VF) (s : State) (b f : Byte) :
    (s.setRegFlag x b f).advance.reg x = b := by
  simp [State.reg_setRegFlag, hx]

theorem reg_other_setRegFlag_advance {x r : Reg} (hx : r ≠ x) (hVF : r ≠ VF) (s : State) (b f : Byte) :
    (s.setRegFlag x b f).advance.reg r = s.reg r := by
  simp [State.reg_setRegFlag, hx, hVF]

/-- Settles O19: half and double of V[x], the flag the bit moved out; neither meaning mentions y. -/
theorem shiftsMoveVxAndKeepTheBitOut : Obligations.ShiftsMoveVxAndKeepTheBitOut := by
  intro s x y
  constructor
  · refine ⟨_, rfl, ?_, fun hx => ?_, fun r hr hVF => reg_other_setRegFlag_advance hr hVF s _ _, rfl,
      exec_unchangedExcept (i := .shr x y) rfl, fun _ => rfl⟩
    · rw [reg_VF_setRegFlag_advance, toNat_shiftedOutRight]
    · have := (s.reg x).isLt
      rw [reg_dest_setRegFlag_advance hx, BitVec.toNat_ofNat, Nat.mod_eq_of_lt (by omega)]
  · refine ⟨_, rfl, ?_, fun hx => ?_, fun r hr hVF => reg_other_setRegFlag_advance hr hVF s _ _, rfl,
      exec_unchangedExcept (i := .shl x y) rfl, fun _ => rfl⟩
    · rw [reg_VF_setRegFlag_advance, toNat_shiftedOutLeft]
    · rw [reg_dest_setRegFlag_advance hx, BitVec.toNat_ofNat]

end Sys2Proof
end

section
/-! Which fault a cycle reports (R121, R123, R258), and that a cycle which reports one leaves nothing behind (R126). -/

namespace Sys2Proof

open Sys2Proof.Machine

/-- Settles O11, by the cases of a cycle; an instruction that runs faults under its own condition (O10). -/
theorem cycleReportsTheFirstFailedCheck : Obligations.CycleReportsTheFirstFailedCheck := by
  intro s
  obtain ⟨hl, hs⟩ | ⟨hl, hp, hs⟩ | ⟨hl, hp, ⟨e, he⟩, hs⟩ | ⟨hl, hp, i, hi, hs⟩ := step_cases s <;> rw [hs]
  · simp [hl]
  · simp [hl, hp, eq_comm]
  · simp [hl, hp, wordIllegal_of_decodeWord_error he, eq_comm]
  · obtain ⟨hfault, -, hrefused⟩ := instructionsCompleteOrFaultExactly i s
    exact ⟨hrefused, fun f => by simp [hfault, hl, hp, hi, wordIllegal_of_decodeWord_ok hi]⟩

theorem pcLegal_eq_false_iff (pc : Word) : pcLegal pc = false ↔ pc.toNat ≥ 4096 ∨ pc.toNat % 2 = 1 := by
  rw [← Bool.not_eq_true, pcLegal_iff]; omega

/-- The fault of R251 is the first check's: a word that does not decode has another, and no instruction raises it. -/
theorem step_eq_invalidProgramCounter_iff (s : State) (p : Word) :
    step s = .fault (.invalidProgramCounter p) ↔ s.loaded = true ∧ pcLegal s.pc = false ∧ p = s.pc := by
  obtain ⟨-, hfault⟩ := cycleReportsTheFirstFailedCheck s
  rw [hfault]
  cases pcLegal s.pc with
  | false => simp
  | true => simp [raisesFault]

/-- Settles O7, by the `pc` check; an even `pc` below 4096 is at most 0xFFE. -/
theorem illegalPcFaults : Obligations.IllegalPcFaults := by
  refine fun s hloaded => ⟨fun p => ?_, fun hpc => by omega⟩
  rw [step_eq_invalidProgramCounter_iff, pcLegal_eq_false_iff]
  exact and_iff_right hloaded

theorem runOp_cycle_fault {s : State} {f : Fault} (h : step s = .fault f) : runOp .cycle s = .fault f := by
  rw [runOp, h, replying]

theorem afterOp_of_fault {op : HostOp} {s : State} {f : Fault} (h : runOp op s = .fault f) : afterOp op s = s := by
  rw [afterOp, h]

/-- Settles O12: the second cycle starts from the state of the first. -/
theorem faultLeavesTheStateAndRepeats : Obligations.FaultLeavesTheStateAndRepeats := by
  intro s f h
  have hrun := runOp_cycle_fault h
  have hsame := afterOp_of_fault hrun
  exact ⟨hsame, by rwa [hsame]⟩

end Sys2Proof
end

section
/-! Where an instruction takes `pc` (R125): the skips and the key wait, then every instruction by its class. -/

namespace Sys2Proof

open Sys2Proof.Machine

/-! A register after an instruction that writes one register and moves on. -/

theorem reg_dest_setReg_advance (s : State) (x : Reg) (b : Byte) : (s.setReg x b).advance.reg x = b := by
  rw [State.reg_advance, State.reg_setReg_self]

theorem reg_other_setReg_advance {x r : Reg} (hr : r ≠ x) (s : State) (b : Byte) :
    (s.setReg x b).advance.reg r = s.reg r := by
  rw [State.reg_advance, State.reg_setReg, if_neg hr]

/-- Settles O15: V[y] is the one byte written. -/
theorem ldRegCopiesWithoutFlag : Obligations.LdRegCopiesWithoutFlag :=
  fun s x _ => ⟨_, rfl, reg_dest_setReg_advance s x _, fun _ hr => reg_other_setReg_advance hr s _, rfl,
    unchangedExcept_setReg_advance s x _⟩

/-- Settles O43, by the two cases of the lowest key. -/
theorem ldVxKWaitsForTheLowestKey : Obligations.LdVxKWaitsForTheLowestKey := by
  refine fun s x => ⟨fun hup => exec_ldVxK_up ?_ x, fun k hdown hlower => ?_⟩
  · exact (State.lowestKey_eq_none s).2 fun k => hup k.toFin
  · have hkey := (State.lowestKey_eq_some s k).2 ⟨hdown, hlower⟩
    refine ⟨_, exec_ldVxK_down hkey x, ?_, fun _ hr => reg_other_setReg_advance hr s _, rfl,
      unchangedExcept_setReg_advance s x _⟩
    rw [reg_dest_setReg_advance, BitVec.toNat_ofNat, Nat.mod_eq_of_lt (by omega)]

/-! The skips: `pc + 4` under their condition, and under its opposite. -/

theorem skipIf_pc_of_iff {c : Bool} {p : Prop} [Decidable p] (h : c = true ↔ p) (s : State) :
    (s.skipIf c).pc = if p then s.pc + 4#16 else s.pc + 2#16 := by
  simp [h]

theorem skipIf_pc_of_iff_not {c : Bool} {p : Prop} [Decidable p] (h : c = true ↔ ¬p) (s : State) :
    (s.skipIf c).pc = if p then s.pc + 2#16 else s.pc + 4#16 := by
  rw [skipIf_pc_of_iff h, ite_not]

/-- Settles O25: the skip tests V[x] against nn. -/
theorem immediateSkipsPassOneWord : Obligations.ImmediateSkipsPassOneWord :=
  fun s _ _ => ⟨⟨_, rfl, skipIf_pc_of_iff beq_iff_eq s, unchangedExcept_skipIf s _⟩,
    ⟨_, rfl, skipIf_pc_of_iff_not bne_iff_ne s, unchangedExcept_skipIf s _⟩⟩

/-- Settles O26: the skip tests V[x] against V[y], which are equal where x = y. -/
theorem registerSkipsPassOneWord : Obligations.RegisterSkipsPassOneWord := by
  intro s x y
  have hse := skipIf_pc_of_iff (beq_iff_eq (a := s.reg x) (b := s.reg y)) s
  have hsne := skipIf_pc_of_iff_not (bne_iff_ne (a := s.reg x) (b := s.reg y)) s
  exact ⟨⟨_, rfl, hse, unchangedExcept_skipIf s _, fun hxy => hse.trans (if_pos (by rw [hxy]))⟩,
    ⟨_, rfl, hsne, unchangedExcept_skipIf s _, fun hxy => hsne.trans (if_pos (by rw [hxy]))⟩⟩

theorem keyDown_keyNumber {b : Byte} {k : Fin 16} (h : b.toNat % 16 = k.val) (s : State) :
    s.keyDown (keyNumber b) = s.keys[k] := by
  simp [State.keyDown, h]

/-- Settles O41: the skip tests the key of the low nibble. -/
theorem keySkipsTestTheLowNibblesKey : Obligations.KeySkipsTestTheLowNibblesKey := by
  intro s x k hk
  have hkey := keyDown_keyNumber hk s
  exact ⟨⟨_, rfl, skipIf_pc_of_iff (by rw [hkey]) s, unchangedExcept_skipIf s _⟩,
    ⟨_, rfl, skipIf_pc_of_iff_not (by simp [hkey]) s, unchangedExcept_skipIf s _⟩⟩

/-! The classes of R125. -/

theorem nextMeets_ite_fault {P : State → Prop} {fits : Prop} [Decidable fits] {t : State} (ht : P t) (f : Fault) :
    NextMeets P (if fits then .next t else .fault f) := by
  split
  case isTrue => exact .next ht
  case isFalse => exact .fault P f

/-- The memory accesses of the class move `pc` where their range check passes. -/
theorem exec_sequential_pc {i : Instr} (hi : pcClass i = .sequential) (s : State) :
    NextMeets (fun t => t.pc = s.pc + 2#16) (exec i s) := by
  cases i with
  | cls | ldImm | addImm | ldReg | orReg | andReg | xorReg | addReg | subReg | shr | subnReg | shl | ldI | rnd
  | ldVxDt | ldDtVx | ldStVx | addIVx | ldFVx => exact .next rfl
  | drw x y n => rw [exec, execDrw_eq]; exact nextMeets_ite_fault (by rfl) _
  | ldBVx x => rw [exec, execLdBVx_eq]; exact nextMeets_ite_fault (by rfl) _
  | ldMemVx x => rw [exec, execLdMemVx_eq]; exact nextMeets_ite_fault (by rfl) _
  | ldVxMem x => rw [exec, execLdVxMem_eq]; exact nextMeets_ite_fault (by rfl) _
  | _ => cases hi

theorem skipIf_pc_eq_or (s : State) (c : Bool) : (s.skipIf c).pc = s.pc + 2#16 ∨ (s.skipIf c).pc = s.pc + 4#16 := by
  cases c with
  | false => exact .inl rfl
  | true => exact .inr rfl

theorem exec_skip_pc {i : Instr} (hi : pcClass i = .skip) (s : State) :
    NextMeets (fun t => t.pc = s.pc + 2#16 ∨ t.pc = s.pc + 4#16) (exec i s) := by
  cases i with
  | seImm | sneImm | seReg | sneReg | skp | sknp => exact .next (skipIf_pc_eq_or s _)
  | _ => cases hi

theorem exec_wait_pc {i : Instr} (hi : pcClass i = .wait) (s : State) :
    NextMeets (fun t => t.pc = if ∀ k, s.keyDown k = false then s.pc else s.pc + 2#16) (exec i s) := by
  cases i with
  | ldVxK x =>
    cases hkey : s.lowestKey with
    | none =>
      rw [exec_ldVxK_up hkey]
      exact .next (if_pos ((State.lowestKey_eq_none s).1 hkey)).symm
    | some k =>
      have hdown : ¬∀ k, s.keyDown k = false := by simp [← State.lowestKey_eq_none, hkey]
      rw [exec_ldVxK_down hkey]
      exact .next (if_neg hdown).symm
  | _ => cases hi

theorem exec_jp_pc (nnn : Addr) (s : State) : NextMeets (fun t => t.pc.toNat = nnn.toNat) (exec (.jp nnn) s) :=
  .next (toNat_zext16 nnn)

theorem exec_call_pc (nnn : Addr) (s : State) :
    NextMeets (fun t => t.pc.toNat = nnn.toNat) (exec (.call nnn) s) := by
  by_cases hsp : s.sp.val < 16
  · rw [exec_call_room hsp]
    exact .next (toNat_zext16 nnn)
  · rw [exec_call_full hsp]
    exact .fault _ _

/-- The exact sum is at most 0xFFF + 0xFF, far below 65536 (R147). -/
theorem exec_jpV0_pc (nnn : Addr) (s : State) :
    NextMeets (fun t => t.pc.toNat = nnn.toNat + (s.reg 0x0#4).toNat) (exec (.jpV0 nnn) s) := by
  have hnnn := nnn.isLt
  have hreg := (s.reg 0x0#4).isLt
  exact .next ((BitVec.toNat_ofNat _ _).trans (Nat.mod_eq_of_lt (by omega)))

/-- Settles O50, class by class; RET goes to the one entry below `sp`. -/
theorem pcMovesByItsClass : Obligations.PcMovesByItsClass := by
  intro i s t h
  split
  case h_1 hi => exact exec_sequential_pc hi s t h
  case h_2 hi => exact exec_skip_pc hi s t h
  case h_3 hi => exact exec_wait_pc hi s t h
  case h_4 =>
    refine ⟨?_, ?_, ?_, ?_⟩
    · rintro nnn rfl
      exact exec_jp_pc nnn s t h
    · rintro nnn rfl
      exact exec_call_pc nnn s t h
    · rintro nnn rfl
      exact exec_jpV0_pc nnn s t h
    · rintro rfl j hj
      obtain ⟨k, hk, hret⟩ := exec_ret_pc h
      obtain rfl : j = k := Fin.ext (by omega)
      exact hret

end Sys2Proof
end

section
/-! What the operations of the host change (R128). -/

namespace Sys2Proof

open Sys2Proof.Machine

/-- A `load` that faults or has no step changes nothing. -/
theorem afterOp_load_unchangedExcept (rom : List Byte) (s : State) :
    UnchangedExcept [.mem, .loaded] s (afterOp (.load rom) s) := by
  rw [afterOp_load]
  split
  case isTrue => simp [UnchangedExcept, State.reg]
  case isFalse => exact .refl _ s

/-- A `set_key` that has no step changes nothing. -/
theorem afterOp_setKey_unchangedExcept (k : Nat) (pressed : Bool) (s : State) :
    UnchangedExcept [.keys] s (afterOp (.setKey k pressed) s) := by
  rw [afterOp_setKey]
  split
  case isTrue => simp [UnchangedExcept, State.reg]
  case isFalse => exact .refl _ s

/-- Settles O56, operation by operation. -/
theorem hostOperationsChangeOnlyTheirOwnState : Obligations.HostOperationsChangeOnlyTheirOwnState := by
  intro op s hop
  cases op with
  | cycle => exact absurd rfl hop
  | load rom => exact afterOp_load_unchangedExcept rom s
  | tickTimers => exact unchangedExcept_tickTimers s
  | setKey k pressed => exact afterOp_setKey_unchangedExcept k pressed s
  | framebuffer => exact .refl _ s
  | consumedBeep | takeRedraw => simp [UnchangedExcept, State.reg]

end Sys2Proof
end

section
/-! Jumps to an address (R141, R147), and a call with its return (R140, R142). -/

namespace Sys2Proof

open Sys2Proof.Machine

/-- Settles O36, by what the two instructions do to the stack (O22, O23): RET takes the entry that CALL pushed. -/
theorem callThenRetComesBack : Obligations.CallThenRetComesBack := by
  intro s t u nnn hcall hsp hstack
  have hroom : s.sp.val < 16 := by
    by_contra hfull
    rw [exec_call_full hfull] at hcall
    cases hcall
  obtain ⟨hpush, -⟩ := callPushesTheReturnAddress s nnn
  obtain ⟨t', ht', htsp, hentry, -⟩ := hpush hroom
  obtain rfl : t' = t := by simpa [ht'] using hcall
  obtain ⟨hpop, -⟩ := retPopsTheTopEntry u
  obtain ⟨w, hret, hwsp, hwpc, -⟩ := hpop ⟨s.sp.val, hroom⟩ (by rw [hsp, htsp])
  exact ⟨w, hret, by rw [hwpc, hstack, hentry, if_pos rfl], Fin.ext hwsp⟩

/-- A jump to the instruction's own address. -/
theorem jump_own_pc (s : State) : s.jump s.pc = s := rfl

/-- The odd target is stored as it is (D31), and the cycle that would fetch from it faults (R121). -/
theorem step_jump_odd {s : State} {nnn : Addr} (hloaded : s.loaded = true) (hodd : nnn.toNat % 2 = 1) :
    step (s.jump (zext16 nnn)) = .fault (.invalidProgramCounter (zext16 nnn)) := by
  obtain ⟨hfault, -⟩ := illegalPcFaults (s.jump (zext16 nnn)) hloaded
  exact (hfault _).2 ⟨.inr (by simpa using hodd), rfl⟩

/-- Settles O21: only `pc` is written, so that a jump to `pc` itself writes nothing new. -/
theorem jpGoesToItsAddress : Obligations.JpGoesToItsAddress := by
  intro s nnn
  obtain ⟨-, hdecode, -⟩ := patternsDecodeToTheirInstruction
  refine ⟨(hdecode nnn).1, _, rfl, toNat_zext16 nnn, exec_unchangedExcept (i := .jp nnn) rfl, fun hself => ?_,
    step_jump_odd⟩
  have hpc : zext16 nnn = s.pc := BitVec.eq_of_toNat_eq ((toNat_zext16 nnn).trans hself.symm)
  rw [hpc, jump_own_pc]

/-- Settles O27: the sum of a 12-bit address and a byte is at most 0xFFF + 0xFF. -/
theorem jpV0AddsV0Unmasked : Obligations.JpV0AddsV0Unmasked := by
  intro s nnn
  have hnnn := nnn.isLt
  have hreg := (s.reg 0x0#4).isLt
  have hpc := exec_jpV0_pc nnn s _ rfl
  exact ⟨_, rfl, hpc, by omega, exec_unchangedExcept (i := .jpV0 nnn) rfl⟩

end Sys2Proof
end

section
/-! Immediates (R160, R161), and the operations between two registers that write a result and then a flag (R163 to R167,
R169). -/

namespace Sys2Proof

open Sys2Proof.Machine

/-- Settles O13: the immediate is the one byte written. -/
theorem ldImmLoadsTheImmediate : Obligations.LdImmLoadsTheImmediate := by
  intro s x nn
  obtain ⟨-, -, hdecode, -⟩ := patternsDecodeToTheirInstruction
  obtain ⟨-, -, hword, -⟩ := hdecode x nn
  exact ⟨hword, _, rfl, reg_dest_setReg_advance s x _, fun _ hr => reg_other_setReg_advance hr s _, rfl,
    unchangedExcept_setReg_advance s x _⟩

/-- Settles O14: the exact sum, narrowed to a byte, is the one byte written. -/
theorem addImmWrapsWithoutFlag : Obligations.AddImmWrapsWithoutFlag := by
  intro s x nn
  obtain ⟨-, -, hdecode, -⟩ := patternsDecodeToTheirInstruction
  obtain ⟨-, -, -, hword, -⟩ := hdecode x nn
  refine ⟨hword, _, rfl, ?_, fun _ hr => reg_other_setReg_advance hr s _, rfl, unchangedExcept_setReg_advance s x _⟩
  rw [reg_dest_setReg_advance, BitVec.toNat_ofNat]

/-- What every instruction leaves that writes a result and then its flag: VF holds the flag even where it is the
destination (R173). -/
theorem exec_result_then_flag {i : Instr} {s : State} {x : Reg} {b f : Byte}
    (h : exec i s = .next (s.setRegFlag x b f).advance) :
    ∃ t, exec i s = .next t ∧ t.reg VF = f ∧ (x ≠ VF → t.reg x = b) ∧
      (∀ r, r ≠ x → r ≠ VF → t.reg r = s.reg r) ∧ t.pc = s.pc + 2#16 ∧ UnchangedExcept [.v, .pc] s t :=
  ⟨_, h, reg_VF_setRegFlag_advance s x b f, fun hx => reg_dest_setRegFlag_advance hx s b f,
    fun _ hr hVF => reg_other_setRegFlag_advance hr hVF s b f, rfl, unchangedExcept_setRegFlag_advance s x b f⟩

/-- Settles O16: the flag is the constant 0, and a bit of the result is the operation on the two bits. -/
theorem logicOpsCombineBitsAndClearVF : Obligations.LogicOpsCombineBitsAndClearVF := by
  intro s x y
  obtain ⟨-, -, -, hdecode, -⟩ := patternsDecodeToTheirInstruction
  obtain ⟨-, -, hor, hand, hxor, -⟩ := hdecode x y
  refine ⟨⟨hor, ?_⟩, ⟨hand, ?_⟩, ⟨hxor, ?_⟩⟩
  · obtain ⟨t, ht, hVF, hdest, hframe⟩ := exec_result_then_flag (i := .orReg x y) (s := s) rfl
    exact ⟨t, ht, hVF, fun hx k _ => by rw [hdest hx, BitVec.getLsbD_or], hframe⟩
  · obtain ⟨t, ht, hVF, hdest, hframe⟩ := exec_result_then_flag (i := .andReg x y) (s := s) rfl
    exact ⟨t, ht, hVF, fun hx k _ => by rw [hdest hx, BitVec.getLsbD_and], hframe⟩
  · obtain ⟨t, ht, hVF, hdest, hframe⟩ := exec_result_then_flag (i := .xorReg x y) (s := s) rfl
    exact ⟨t, ht, hVF, fun hx k _ => by rw [hdest hx, BitVec.getLsbD_xor], hframe⟩

theorem carry_eq_ite (a b : Byte) : carry a b = if a.toNat + b.toNat > 255 then 0x01#8 else 0x00#8 := by
  simp only [carry, flagByte, decide_eq_true_eq]

theorem notBorrow_eq_ite (a b : Byte) : notBorrow a b = if a.toNat ≥ b.toNat then 0x01#8 else 0x00#8 := by
  simp only [notBorrow, flagByte, decide_eq_true_eq]

/-- Settles O17: the result and the carry are both computed from the old values (R174). -/
theorem addRegSetsCarry : Obligations.AddRegSetsCarry := by
  intro s x y
  obtain ⟨t, ht, hVF, hdest, hframe⟩ := exec_result_then_flag (i := .addReg x y) (s := s) rfl
  exact ⟨t, ht, by rw [hVF, carry_eq_ite], fun hx => by rw [hdest hx, BitVec.toNat_ofNat], hframe⟩

/-- Narrowing to a byte takes the non-negative remainder, also of a negative number (R9). -/
theorem toNat_ofInt_byte (z : Int) : ((BitVec.ofInt 8 z).toNat : Int) = z % 256 := by
  rw [BitVec.toNat_ofInt]
  omega

/-- Settles O18: one subtraction is the other with its operands exchanged, in the result and in the flag. -/
theorem subtractionsSetNotBorrow : Obligations.SubtractionsSetNotBorrow := by
  intro s x y
  constructor
  · obtain ⟨t, ht, hVF, hdest, hframe⟩ := exec_result_then_flag (i := .subReg x y) (s := s) rfl
    exact ⟨t, ht, by rw [hVF, notBorrow_eq_ite], fun hx => by rw [hdest hx, toNat_ofInt_byte], hframe⟩
  · obtain ⟨t, ht, hVF, hdest, hframe⟩ := exec_result_then_flag (i := .subnReg x y) (s := s) rfl
    exact ⟨t, ht, by rw [hVF, notBorrow_eq_ite], fun hx => by rw [hdest hx, toNat_ofInt_byte], hframe⟩

end Sys2Proof
end

section
/-! The index register (R190, R192), and the instructions that move bytes between the registers and memory from I on
(R193 to R195). -/

namespace Sys2Proof

open Sys2Proof.Machine

/-- Settles O28: a 12-bit address keeps its value in sixteen bits. -/
theorem ldISetsTheIndex : Obligations.LdISetsTheIndex := by
  intro s nnn
  obtain ⟨-, hdecode, -⟩ := patternsDecodeToTheirInstruction
  obtain ⟨-, -, hword, -⟩ := hdecode nnn
  exact ⟨hword, _, rfl, toNat_zext16 nnn, rfl, unchangedExcept_setI_advance s _⟩

/-- Settles O30: the highest glyph is that of the digit 15, at 0x4B. -/
theorem ldFPointsAtTheGlyph : Obligations.LdFPointsAtTheGlyph := by
  intro s x
  have hglyph := toNat_glyphAddress (s.reg x)
  exact ⟨_, rfl, hglyph, hglyph.trans_le (by omega), rfl, unchangedExcept_setI_advance s _⟩

/-! The instructions that access memory from I on, where their range is in memory (R75). -/

theorem exec_ldBVx_in_range {s : State} (h : s.i.toNat + 2 ≤ 0xFFF) (x : Reg) :
    exec (.ldBVx x) s = .next (s.setMem (s.mem.writeBytes s.i.toNat (bcdDigits (s.reg x)))).advance := by
  rw [exec, execLdBVx_eq, if_pos (by omega)]

theorem exec_ldMemVx_in_range {s : State} {x : Reg} (h : s.i.toNat + x.toNat ≤ 0xFFF) :
    exec (.ldMemVx x) s = .next (s.setMem (s.mem.writeBytes s.i.toNat (s.regsUpTo x))).advance := by
  rw [exec, execLdMemVx_eq, if_pos (by omega)]

theorem exec_ldVxMem_in_range {s : State} {x : Reg} (h : s.i.toNat + x.toNat ≤ 0xFFF) :
    exec (.ldVxMem x) s = .next (s.setRegs (s.mem.readBytes s.i.toNat (x.toNat + 1))).advance := by
  rw [exec, execLdVxMem_eq, if_pos (by omega)]

/-! The two halves of `Memory.read_writeBytes`: inside the block that was written, and outside it. -/

theorem read_writeBytes_inside (m : Memory) (a : Nat) {bytes : List Byte} {k : Nat} (hk : k < bytes.length) :
    (m.writeBytes a bytes).read (a + k) = bytes.getD k 0x00#8 := by
  rw [Memory.read_writeBytes, if_pos (by omega), Nat.add_sub_cancel_left]

theorem read_writeBytes_outside (m : Memory) {a b : Nat} {bytes : List Byte} (hb : b < a ∨ a + bytes.length ≤ b) :
    (m.writeBytes a bytes).read b = m.read b := by
  rw [Memory.read_writeBytes, if_neg (by omega)]

/-! Registers and memory, digit by digit and register by register. -/

/-- The byte stored for the k-th decimal digit. -/
theorem toNat_read_bcdDigits (m : Memory) (a : Nat) (b : Byte) {k : Nat} (hk : k < 3) :
    ((m.writeBytes a (bcdDigits b)).read (a + k)).toNat =
      [b.toNat / 100, b.toNat / 10 % 10, b.toNat % 10].getD k 0 := by
  rw [read_writeBytes_inside m a (by simpa using hk), ← toNat_bcdDigits]
  exact (List.getD_map (bcdDigits b) 0x00#8 BitVec.toNat).symm

/-- Settles O31: digit by digit. -/
theorem bcdStoresThreeDigits : Obligations.BcdStoresThreeDigits := fun s x h =>
  ⟨_, exec_ldBVx_in_range h x, toNat_read_bcdDigits s.mem s.i.toNat (s.reg x) (k := 0) (by decide),
    toNat_read_bcdDigits s.mem s.i.toNat (s.reg x) (k := 1) (by decide),
    toNat_read_bcdDigits s.mem s.i.toNat (s.reg x) (k := 2) (by decide),
    fun _ ha => read_writeBytes_outside s.mem (by rw [length_bcdDigits]; omega), rfl,
    unchangedExcept_setMem_advance s _⟩

/-- Settles O32: the bytes stored are the registers in order. -/
theorem storeWritesV0ToVx : Obligations.StoreWritesV0ToVx := by
  intro s x h
  have hlen := s.length_regsUpTo x
  refine ⟨_, exec_ldMemVx_in_range h, fun r hr => ?_, fun a ha => read_writeBytes_outside s.mem (by omega), rfl,
    unchangedExcept_setMem_advance s _⟩
  calc (s.mem.writeBytes s.i.toNat (s.regsUpTo x)).read (s.i.toNat + r.toNat)
      = (s.regsUpTo x).getD r.toNat 0x00#8 := read_writeBytes_inside s.mem s.i.toNat (by omega)
    _ = s.reg (BitVec.ofNat 4 r.toNat) := s.getD_regsUpTo x r.toNat 0x00#8 hr
    _ = s.reg r := by rw [BitVec.ofNat_toNat, BitVec.setWidth_eq]

/-- What a register holds after a block was loaded into V[0] to V[x] (R195). -/
theorem reg_setRegs_readBytes (s : State) (a : Nat) (x r : Reg) :
    (s.setRegs (s.mem.readBytes a (x.toNat + 1))).reg r =
      if r.toNat ≤ x.toNat then s.mem.read (a + r.toNat) else s.reg r := by
  rw [State.reg_setRegs]
  split
  case isTrue hr => exact Memory.getD_readBytes s.mem a _ _ _ (Nat.lt_succ_of_le hr)
  case isFalse hr => exact List.getD_eq_default _ _ (by rw [Memory.length_readBytes]; omega)

/-- Settles O33: the registers up to V[x] take the bytes read. -/
theorem loadReadsV0ToVx : Obligations.LoadReadsV0ToVx := by
  intro s x h
  have hrun := exec_ldVxMem_in_range h
  exact ⟨_, hrun, reg_setRegs_readBytes s s.i.toNat x, rfl, exec_unchangedExcept hrun⟩

/-- A store that completed had its range in memory (R75). -/
theorem ldMemVx_range_of_next {s t : State} {x : Reg} (h : exec (.ldMemVx x) s = .next t) :
    s.i.toNat + x.toNat ≤ 0xFFF := by
  by_contra hpast
  rw [exec_access_past_memory (i := .ldMemVx x) (Nat.succ_pos _) (by simpa [accessBytes] using hpast)] at h
  cases h

/-- Settles O35, by what the two instructions do to memory and to the registers (O32, O33): FX65 reads each byte that
FX55 stored. -/
theorem storeThenLoadRestoresRegisters : Obligations.StoreThenLoadRestoresRegisters := by
  intro s t u x hstore hmem hi
  have hrange := ldMemVx_range_of_next hstore
  obtain ⟨t', ht', hstored, -⟩ := storeWritesV0ToVx s x hrange
  obtain rfl : t' = t := by simpa [ht'] using hstore
  obtain ⟨w, hload, hloaded, -⟩ := loadReadsV0ToVx u x (by rwa [hi])
  exact ⟨w, hload, fun r hr => by rw [hloaded, if_pos hr, hmem, hi, hstored r hr]⟩

end Sys2Proof
end

section
/-! Drawing a sprite (R211, R212). -/

namespace Sys2Proof

open Sys2Proof.Machine

/-! The cells the blit engine is given are those under the sprite's 1 bits, each once. -/

/-- The cells that `DXYN` flips in `s`, in the order of R211's loops. -/
def litCells (s : State) (x y : Reg) (n : Nibble) : List (Fin 2048) :=
  spriteCells (s.reg x).toNat (s.reg y).toNat (s.mem.readBytes s.i.toNat n.toNat)

theorem mem_litCells (s : State) (x y : Reg) (n : Nibble) (j : Fin 2048) :
    j ∈ litCells s x y n ↔ spriteLights s x y n j := by
  rw [litCells, mem_spriteCells, Memory.length_readBytes, spriteLights]
  refine exists_congr fun k => and_congr_right fun hk => ?_
  rw [Memory.getD_readBytes _ _ _ _ _ hk]

/-- A sprite has at most 15 rows, so no two of them wrap onto one. -/
theorem litCells_nodup (s : State) (x y : Reg) (n : Nibble) : (litCells s x y n).Nodup := by
  have hn := n.isLt
  exact spriteCells_nodup _ _ _ (by rw [Memory.length_readBytes]; omega)

/-! `DXYN` where its sprite is in memory (R75). -/

theorem exec_drw_in_range {s : State} {n : Nibble} (h : n.toNat = 0 ∨ s.i.toNat + n.toNat - 1 ≤ 0xFFF) (x y : Reg) :
    exec (.drw x y n) s =
      .next ((s.setDisplay (flipCells s.fb (litCells s x y n)).1).setReg VF
        (flagByte (flipCells s.fb (litCells s x y n)).2)).advance := by
  rw [exec, execDrw_eq, if_pos (by omega), draw, litCells]

/-- A draw that completed had its sprite in memory. -/
theorem drw_range_of_next {s t : State} {x y : Reg} {n : Nibble} (h : exec (.drw x y n) s = .next t) :
    n.toNat = 0 ∨ s.i.toNat + n.toNat - 1 ≤ 0xFFF := by
  by_contra hpast
  rw [exec_access_past_memory (i := .drw x y n) (by simp only [accessBytes]; omega)
    (by simp only [accessBytes]; omega)] at h
  cases h

/-- `collided` of R211, by the cells under the sprite. -/
theorem collided_iff (s : State) (x y : Reg) (n : Nibble) :
    (flipCells s.fb (litCells s x y n)).2 = true ↔ ∃ j : Fin 2048, spriteLights s x y n j ∧ s.fb[j] = true := by
  simp only [flipCells_collided _ _ (litCells_nodup s x y n), mem_litCells]

/-- Settles O38: the cells flipped are distinct, so that each is flipped once. -/
theorem drwFlipsTheSpritesCells : Obligations.DrwFlipsTheSpritesCells := by
  intro s x y n h
  have hrun := exec_drw_in_range h x y
  refine ⟨_, hrun, fun j hj => ?_, fun j hj => ?_, fun hcollided => ?_, fun hcollided => ?_,
    fun _ hr => reg_other_setReg_advance hr _ _, rfl, rfl, exec_unchangedExcept hrun⟩
  · exact flipCells_of_mem s.fb _ j (litCells_nodup s x y n) ((mem_litCells s x y n j).2 hj)
  · exact flipCells_of_not_mem s.fb _ j (mt (mem_litCells s x y n j).1 hj)
  · rw [reg_dest_setReg_advance, (collided_iff s x y n).2 hcollided, flagByte_true]
  · rw [reg_dest_setReg_advance, eq_false_of_ne_true (mt (collided_iff s x y n).1 hcollided), flagByte_false]

/-! The same sprite again, from another state. -/

/-- A sprite's cells depend on memory, `I`, V[x] and V[y] alone. -/
theorem spriteLights_congr {s u : State} {x y : Reg} (hmem : u.mem = s.mem) (hi : u.i = s.i)
    (hx : u.reg x = s.reg x) (hy : u.reg y = s.reg y) (n : Nibble) (j : Fin 2048) :
    spriteLights u x y n j ↔ spriteLights s x y n j := by
  rw [spriteLights, spriteLights, hmem, hi, hx, hy]

/-- Settles O39, by what one draw does (O38): the second flips the same cells back, and finds 1 exactly where the first
turned a 0 into a 1. -/
theorem drawingTwiceRestoresTheBuffer : Obligations.DrawingTwiceRestoresTheBuffer := by
  intro s t u x y n hfirst hfb hmem hi hx hy
  have hrange := drw_range_of_next hfirst
  have hlights := spriteLights_congr hmem hi hx hy n
  obtain ⟨t', ht', hflip, hkeep, -⟩ := drwFlipsTheSpritesCells s x y n hrange
  obtain rfl : t' = t := by simpa [ht'] using hfirst
  obtain ⟨w, hsecond, hflip', hkeep', hone, hzero, -⟩ := drwFlipsTheSpritesCells u x y n (by rwa [hi])
  simp only [hlights, hfb] at hflip' hkeep' hone hzero
  have hback : ∀ j : Fin 2048, w.fb[j] = s.fb[j] := by
    intro j
    by_cases hj : spriteLights s x y n j
    · rw [hflip' j hj, hflip j hj, Bool.not_not]
    · rw [hkeep' j hj, hkeep j hj]
  have hset : ∀ j : Fin 2048, spriteLights s x y n j ∧ t'.fb[j] = true ↔ s.fb[j] = false ∧ t'.fb[j] = true := by
    intro j
    by_cases hj : spriteLights s x y n j
    · simp [hj, hflip j hj]
    · simp [hj, hkeep j hj]
  refine ⟨w, hsecond, Vector.ext fun j hj => hback ⟨j, hj⟩, fun hVF => ?_, fun hsome => ?_⟩
  · by_contra hnone
    rw [hzero (by simpa only [hset] using hnone)] at hVF
    exact absurd hVF (by decide)
  · exact hone (by simpa only [hset] using hsome)

end Sys2Proof
end

section
/-! The timer registers: DT is read and written (R232, R234), ST is written (R235). -/

namespace Sys2Proof

open Sys2Proof.Machine

/-- R232: besides a cycle only the tick has DT among the pieces of state it may change. -/
theorem afterOp_dt {op : HostOp} (hcycle : op ≠ .cycle) (htick : op ≠ .tickTimers) (s : State) :
    (afterOp op s).dt = s.dt := by
  have frame := hostOperationsChangeOnlyTheirOwnState op s hcycle
  cases op with
  | cycle => exact absurd rfl hcycle
  | tickTimers => exact absurd rfl htick
  | load | setKey | framebuffer | consumedBeep | takeRedraw => exact frame.same .dt (by simp)

/-- Settles O42: of all instructions FX15 alone has DT on its list. -/
theorem ldVxDtReadsTheDelayTimer : Obligations.LdVxDtReadsTheDelayTimer := by
  intro s x
  obtain ⟨-, -, -, -, hdecode, -⟩ := patternsDecodeToTheirInstruction
  obtain ⟨-, -, hword, -⟩ := hdecode x
  exact ⟨hword,
    ⟨_, rfl, reg_dest_setReg_advance s x _, fun _ hr => reg_other_setReg_advance hr s _, rfl,
      unchangedExcept_setReg_advance s x _⟩,
    fun _ _ hrun hdt => dt_mem_mayWrite (mem_mayWrite_of_changed hrun hdt),
    fun _ hcycle htick => afterOp_dt hcycle htick s⟩

/-- Settles O45: V[x] is the byte written to DT. -/
theorem ldDtVxWritesTheDelayTimer : Obligations.LdDtVxWritesTheDelayTimer := by
  intro s x
  obtain ⟨-, -, -, -, hdecode, -⟩ := patternsDecodeToTheirInstruction
  obtain ⟨-, -, -, -, hword, -⟩ := hdecode x
  exact ⟨hword, _, rfl, rfl, rfl, exec_unchangedExcept (i := .ldDtVx x) rfl⟩

/-- Settles O46: V[x] is the byte written to ST, and `beep` is on no instruction's list. -/
theorem ldStVxWritesTheSoundTimer : Obligations.LdStVxWritesTheSoundTimer := by
  intro s x
  have frame := exec_unchangedExcept (i := .ldStVx x) (s := s) rfl
  exact ⟨_, rfl, rfl, frame.same .beep (beep_notMem_mayWrite _), rfl, frame⟩

end Sys2Proof
end

section
/-! The conditions of the stack's and the ROM's faults (R253, R254, R256), and the two latches the host reads (R264, R269). -/

namespace Sys2Proof

open Sys2Proof.Machine

theorem load_eq_romTooLarge_iff {s : State} (hs : s.loaded = false) (rom : List Byte) :
    load rom s = .fault .romTooLarge ↔ 3584 < rom.length := by
  refine ⟨fun hfault => ?_, load_too_large hs⟩
  by_contra hfits
  rw [load_fits hs (by omega)] at hfault
  cases hfault

/-- Settles O24: the two stack faults are O10 at CALL and RET; that a load which faults leaves the state is R126. -/
theorem stackAndRomFaultsHaveTheirConditions : Obligations.StackAndRomFaultsHaveTheirConditions := by
  refine ⟨fun s nnn => ?_, fun s => ?_, fun s rom hs => ⟨load_eq_romTooLarge_iff hs rom, fun hlong => ?_⟩⟩
  · obtain ⟨hfault, -, -⟩ := instructionsCompleteOrFaultExactly (.call nnn) s
    rw [hfault, raisesFault_call, and_iff_left rfl]
  · obtain ⟨hfault, -, -⟩ := instructionsCompleteOrFaultExactly .ret s
    rw [hfault, raisesFault_ret, and_iff_left rfl]
  · have hrun : runOp (.load rom) s = .fault .romTooLarge := by rw [runOp, load_too_large hs hlong, replying]
    have hsame := afterOp_of_fault hrun
    exact ⟨hsame, by rwa [hsame]⟩

/-- Settles O55: each read leaves its latch false, so reading it again gives false; its frame is that of R128 (O56). -/
theorem latchesAreReadAndCleared : Obligations.LatchesAreReadAndCleared := by
  intro s
  constructor
  · have frame := hostOperationsChangeOnlyTheirOwnState .consumedBeep s (by simp)
    exact ⟨(consumedBeep s).2, rfl, rfl, frame, rfl⟩
  · have frame := hostOperationsChangeOnlyTheirOwnState .takeRedraw s (by simp)
    exact ⟨(takeRedraw s).2, rfl, rfl, frame, rfl⟩

end Sys2Proof
end
